-- ==== Sys2Proof/Word.lean ====
section
/-! DEFINITION. The words of the CHIP-8 engine (spec 00_scope.md R10 to R12): every value is unsigned and of a stated width. -/

namespace Sys2Proof

/-- One memory cell, one V register, one timer, one immediate `nn` (R30, R40, R42, R43, R102). -/
abbrev Byte := BitVec 8

/-- One instruction word, and the width of PC, I and a stack entry (R10, R34, R37, R41). -/
abbrev Word := BitVec 16

/-- The address operand `nnn` (R102, R105). -/
abbrev Addr12 := BitVec 12

/-- A register index `x` or `y`, 0..15: the 4-bit field cannot name a register that does not exist (R30, R32). -/
abbrev Reg := Fin 16

/-- A key index, 0..15 (R45). -/
abbrev Key := Fin 16

/-- The sprite height operand `n`, 0..15 (R102, R105). -/
abbrev Height := Fin 16

end Sys2Proof
end

