-- ==== Sys2Proof/Syntax.lean ====
section
/-! DEFINITION. The instruction set as syntax: one constructor per row of spec/opcode_table.json, in the table's order
(30_encoding.md R114, R120). Operand names are the spec's (R102). -/

namespace Sys2Proof

inductive Instr where
  /-- ClearScreen, 00E0 (R140). -/
  | clearScreen
  /-- Return, 00EE (R143). -/
  | ret
  /-- Jump(nnn), 1nnn (R141). -/
  | jump (nnn : Addr12)
  /-- CallSubroutine(nnn), 2nnn (R142). -/
  | callSubroutine (nnn : Addr12)
  /-- SkipEqual(x,nn), 3xnn (R160). -/
  | skipEqual (x : Reg) (nn : Byte)
  /-- SkipNotEqual(x,nn), 4xnn (R161). -/
  | skipNotEqual (x : Reg) (nn : Byte)
  /-- SkipRegisterEqual(x,y), 5xy?: the low nibble is ignored (R108, R162). -/
  | skipRegisterEqual (x y : Reg)
  /-- Set(x,nn), 6xnn (R180). -/
  | set (x : Reg) (nn : Byte)
  /-- Add(x,nn), 7xnn (R181). -/
  | add (x : Reg) (nn : Byte)
  /-- SetRegister(x,y), 8xy0 (R182). -/
  | setRegister (x y : Reg)
  /-- OrRegister(x,y), 8xy1 (R183). -/
  | orRegister (x y : Reg)
  /-- AndRegister(x,y), 8xy2 (R184). -/
  | andRegister (x y : Reg)
  /-- XorRegister(x,y), 8xy3 (R185). -/
  | xorRegister (x y : Reg)
  /-- AddRegister(x,y), 8xy4 (R201). -/
  | addRegister (x y : Reg)
  /-- SubtractYFromX(x,y), 8xy5 (R202). -/
  | subtractYFromX (x y : Reg)
  /-- ShiftRight(x,y), 8xy6 (R204). -/
  | shiftRight (x y : Reg)
  /-- SubtractXFromY(x,y), 8xy7 (R203). -/
  | subtractXFromY (x y : Reg)
  /-- ShiftLeft(x,y), 8xyE (R205). -/
  | shiftLeft (x y : Reg)
  /-- SkipRegisterNotEqual(x,y), 9xy?: the low nibble is ignored (R109, R163). -/
  | skipRegisterNotEqual (x y : Reg)
  /-- SetIndex(nnn), Annn (R220). -/
  | setIndex (nnn : Addr12)
  /-- JumpWithOffset(nnn), Bnnn (R144). -/
  | jumpWithOffset (nnn : Addr12)
  /-- Random(x,nn), Cxnn (R264). -/
  | random (x : Reg) (nn : Byte)
  /-- Display(x,y,n), Dxyn (R240). -/
  | display (x y : Reg) (n : Height)
  /-- SkipIfPressed(x), Ex9E (R164). -/
  | skipIfPressed (x : Reg)
  /-- SkipIfNotPressed(x), ExA1 (R165). -/
  | skipIfNotPressed (x : Reg)
  /-- SetRegisterDelayTimer(x), Fx07 (R260). -/
  | setRegisterDelayTimer (x : Reg)
  /-- GetKey(x), Fx0A (R263). -/
  | getKey (x : Reg)
  /-- SetDelayTimer(x), Fx15 (R261). -/
  | setDelayTimer (x : Reg)
  /-- SetSoundTimer(x), Fx18 (R262). -/
  | setSoundTimer (x : Reg)
  /-- AddToIndex(x), Fx1E (R221). -/
  | addToIndex (x : Reg)
  /-- FontCharacter(x), Fx29 (R222). -/
  | fontCharacter (x : Reg)
  /-- DecimalConversion(x), Fx33 (R223). -/
  | decimalConversion (x : Reg)
  /-- Store(x), Fx55 (R224). -/
  | store (x : Reg)
  /-- Load(x), Fx65 (R225). -/
  | load (x : Reg)
deriving DecidableEq, Repr

end Sys2Proof
end

