-- ==== Sys2Proof/WellFormed.lean ====
section
/-! DEFINITION. The checks on instructions and on instruction words (30_encoding.md R102, R105, R115). -/

namespace Sys2Proof

/-- A value fits an unsigned field of `width` bits (R105). -/
def fitsField (width value : Nat) : Bool := value < 2 ^ width

/-- The instruction's operands as pairs (width of the field, value), by the formats of R103. -/
def Instr.operands : Instr → List (Nat × Nat)
  | .clearScreen | .ret => []
  | .jump a | .callSubroutine a | .setIndex a | .jumpWithOffset a => [(12, a.toNat)]
  | .skipEqual x nn | .skipNotEqual x nn | .set x nn | .add x nn | .random x nn =>
      [(4, x.val), (8, nn.toNat)]
  | .skipRegisterEqual x y | .skipRegisterNotEqual x y | .setRegister x y | .orRegister x y
  | .andRegister x y | .xorRegister x y | .addRegister x y | .subtractYFromX x y
  | .shiftRight x y | .subtractXFromY x y | .shiftLeft x y => [(4, x.val), (4, y.val)]
  | .display x y n => [(4, x.val), (4, y.val), (4, n.val)]
  | .skipIfPressed x | .skipIfNotPressed x | .setRegisterDelayTimer x | .getKey x
  | .setDelayTimer x | .setSoundTimer x | .addToIndex x | .fontCharacter x
  | .decimalConversion x | .store x | .load x => [(4, x.val)]

/-- Every operand fits the field its format gives it. The operand types already hold this bound (R32), so every instruction
passes (`Sys2Proof.Laws.wellFormed_all`); what can fail is a raw value, by `fitsField`, and a raw word, by `legalWord`. -/
def Instr.wellFormed (i : Instr) : Bool := i.operands.all fun p => fitsField p.1 p.2

/-- Group 0 holds two words (R106, R115). -/
def legalGroup0 (w : Word) : Bool := w = 0x00E0 || w = 0x00EE

/-- Group 8: the sub-opcodes `n` that R115 does not list as illegal. -/
def legalGroup8 (w : Word) : Bool := !([0x8, 0x9, 0xA, 0xB, 0xC, 0xD, 0xF].contains (w.toNat % 16))

/-- Group E: `nn` is 0x9E or 0xA1 (R111, R115). -/
def legalGroupE (w : Word) : Bool := [0x9E, 0xA1].contains (w.toNat % 256)

/-- Group F: `nn` is one of nine values (R112, R115). -/
def legalGroupF (w : Word) : Bool :=
  [0x07, 0x0A, 0x15, 0x18, 0x1E, 0x29, 0x33, 0x55, 0x65].contains (w.toNat % 256)

/-- The legal words, written from R115's list of the illegal ones and not from the decoder. -/
def legalWord (w : Word) : Bool :=
  if w.toNat / 4096 = 0x0 then legalGroup0 w
  else if w.toNat / 4096 = 0x8 then legalGroup8 w
  else if w.toNat / 4096 = 0xE then legalGroupE w
  else if w.toNat / 4096 = 0xF then legalGroupF w
  else true

end Sys2Proof
end

