-- ==== Sys2Proof/Decode.lean ====
section
/-! DEFINITION. The decoder_table and its inverse (30_encoding.md R100 to R120): a pure, total function from a 16-bit word to
an operation or a rejection by name, the encoder written from the formats of R103, and the opcode table as rows of mask and
match. Encodings are the spec's decision D1. -/

namespace Sys2Proof

/-- Why a decoder gives no instruction. -/
inductive DecodeError where
  /-- The word is illegal (R115, R118). -/
  | unrecognizedInstruction (w : Word)
  /-- Fewer than the two bytes of an instruction (R100). -/
  | truncated
deriving DecidableEq, Repr

/-! ## Fields (R102) -/

/-- `w[15:12]`, the top nibble. -/
def fieldA (w : Word) : BitVec 4 := w.extractLsb' 12 4

/-- `w[11:8]`, a register index. -/
def fieldX (w : Word) : Reg := (w.extractLsb' 8 4).toFin

/-- `w[7:4]`, a register index. -/
def fieldY (w : Word) : Reg := (w.extractLsb' 4 4).toFin

/-- `w[3:0]`, the sprite height. -/
def fieldN (w : Word) : Height := (w.extractLsb' 0 4).toFin

/-- `w[3:0]` as group 8's sub-opcode. -/
def subOpN (w : Word) : BitVec 4 := w.extractLsb' 0 4

/-- `w[7:0]`, an immediate byte or the sub-opcode of groups E and F. -/
def fieldNN (w : Word) : Byte := w.extractLsb' 0 8

/-- `w[11:0]`, an address. -/
def fieldNNN (w : Word) : Addr12 := w.extractLsb' 0 12

/-! ## The decoder (R113) -/

/-- Group 0 matches the whole word (R106). -/
def decodeGroup0 (w : Word) : Except DecodeError Instr :=
  if w = 0x00E0 then .ok .clearScreen
  else if w = 0x00EE then .ok .ret
  else .error (.unrecognizedInstruction w)

/-- Group 8 selects by `n` (R110). -/
def decodeGroup8 (w : Word) : Except DecodeError Instr :=
  let x := fieldX w
  let y := fieldY w
  if subOpN w = 0x0 then .ok (.setRegister x y)
  else if subOpN w = 0x1 then .ok (.orRegister x y)
  else if subOpN w = 0x2 then .ok (.andRegister x y)
  else if subOpN w = 0x3 then .ok (.xorRegister x y)
  else if subOpN w = 0x4 then .ok (.addRegister x y)
  else if subOpN w = 0x5 then .ok (.subtractYFromX x y)
  else if subOpN w = 0x6 then .ok (.shiftRight x y)
  else if subOpN w = 0x7 then .ok (.subtractXFromY x y)
  else if subOpN w = 0xE then .ok (.shiftLeft x y)
  else .error (.unrecognizedInstruction w)

/-- Group E selects by `nn` (R111). -/
def decodeGroupE (w : Word) : Except DecodeError Instr :=
  let x := fieldX w
  if fieldNN w = 0x9E then .ok (.skipIfPressed x)
  else if fieldNN w = 0xA1 then .ok (.skipIfNotPressed x)
  else .error (.unrecognizedInstruction w)

/-- Group F selects by `nn` (R112). -/
def decodeGroupF (w : Word) : Except DecodeError Instr :=
  let x := fieldX w
  if fieldNN w = 0x07 then .ok (.setRegisterDelayTimer x)
  else if fieldNN w = 0x0A then .ok (.getKey x)
  else if fieldNN w = 0x15 then .ok (.setDelayTimer x)
  else if fieldNN w = 0x18 then .ok (.setSoundTimer x)
  else if fieldNN w = 0x1E then .ok (.addToIndex x)
  else if fieldNN w = 0x29 then .ok (.fontCharacter x)
  else if fieldNN w = 0x33 then .ok (.decimalConversion x)
  else if fieldNN w = 0x55 then .ok (.store x)
  else if fieldNN w = 0x65 then .ok (.load x)
  else .error (.unrecognizedInstruction w)

/-- The decode function, R113: total, and every one of the 65536 words has exactly one result (R104). The last arm is the
source's "unknown top nibble" failure, which cannot occur (R116). -/
def decode (w : Word) : Except DecodeError Instr :=
  match fieldA w with
  | 0x0#4 => decodeGroup0 w
  | 0x1#4 => .ok (.jump (fieldNNN w))
  | 0x2#4 => .ok (.callSubroutine (fieldNNN w))
  | 0x3#4 => .ok (.skipEqual (fieldX w) (fieldNN w))
  | 0x4#4 => .ok (.skipNotEqual (fieldX w) (fieldNN w))
  | 0x5#4 => .ok (.skipRegisterEqual (fieldX w) (fieldY w))
  | 0x6#4 => .ok (.set (fieldX w) (fieldNN w))
  | 0x7#4 => .ok (.add (fieldX w) (fieldNN w))
  | 0x8#4 => decodeGroup8 w
  | 0x9#4 => .ok (.skipRegisterNotEqual (fieldX w) (fieldY w))
  | 0xA#4 => .ok (.setIndex (fieldNNN w))
  | 0xB#4 => .ok (.jumpWithOffset (fieldNNN w))
  | 0xC#4 => .ok (.random (fieldX w) (fieldNN w))
  | 0xD#4 => .ok (.display (fieldX w) (fieldY w) (fieldN w))
  | 0xE#4 => decodeGroupE w
  | 0xF#4 => decodeGroupF w
  | _ => .error (.unrecognizedInstruction w)

/-- The word two bytes make: the byte at the lower address is bits 15:8 (R74, R101). -/
def wordOfBytes (hi lo : Byte) : Word := hi ++ lo

/-- The byte of a word at its lower address, bits 15:8 (R74). -/
def highByte (w : Word) : Byte := w.extractLsb' 8 8

/-- The byte of a word at its higher address, bits 7:0 (R74). -/
def lowByte (w : Word) : Byte := w.extractLsb' 0 8

/-- The decoder on bytes, total: one instruction and the bytes after it. Every instruction is two bytes (R100). -/
def decodeBytes : List Byte → Except DecodeError (Instr × List Byte)
  | hi :: lo :: rest => (decode (wordOfBytes hi lo)).map fun i => (i, rest)
  | _ => .error .truncated

/-- The instruction the decoder reads from a word numbered as spec/opcode_table.json numbers it: bit 0 is the least significant
bit of the first (and only) 16-bit word. Bits at and above `nbits` are 0. The word is laid out as its two bytes, high first. -/
def decodeTableWord (nbits w : Nat) : Option Instr :=
  let word := BitVec.ofNat 16 (w % 2 ^ nbits)
  match decodeBytes [highByte word, lowByte word] with
  | .ok (i, _) => some i
  | .error _ => none

/-! ## The encoder (R103) -/

/-- A register index as the 4 bits of its field. -/
def regBits (x : Reg) : BitVec 4 := BitVec.ofFin x

/-- Format FA: `oooo nnnn nnnn nnnn`. -/
def wordFA (op : BitVec 4) (nnn : Addr12) : Word := op ++ nnn

/-- Format FXB: `oooo xxxx nnnn nnnn`. Format FX is the same with the sub-opcode in the low byte. -/
def wordFXB (op : BitVec 4) (x : Reg) (nn : Byte) : Word := op ++ regBits x ++ nn

/-- Format FXYN: `oooo xxxx yyyy nnnn`. Format FXY is the same with the sub-opcode (or the ignored nibble) in the low nibble. -/
def wordFXYN (op : BitVec 4) (x y : Reg) (n : BitVec 4) : Word := op ++ regBits x ++ regBits y ++ n

/-- The word of an instruction (R120). For SkipRegisterEqual and SkipRegisterNotEqual the ignored low nibble (R108, R109) is
written as 0, the standard spelling 5XY0 and 9XY0. -/
def encode : Instr → Word
  | .clearScreen => 0x00E0
  | .ret => 0x00EE
  | .jump nnn => wordFA 0x1 nnn
  | .callSubroutine nnn => wordFA 0x2 nnn
  | .skipEqual x nn => wordFXB 0x3 x nn
  | .skipNotEqual x nn => wordFXB 0x4 x nn
  | .skipRegisterEqual x y => wordFXYN 0x5 x y 0x0
  | .set x nn => wordFXB 0x6 x nn
  | .add x nn => wordFXB 0x7 x nn
  | .setRegister x y => wordFXYN 0x8 x y 0x0
  | .orRegister x y => wordFXYN 0x8 x y 0x1
  | .andRegister x y => wordFXYN 0x8 x y 0x2
  | .xorRegister x y => wordFXYN 0x8 x y 0x3
  | .addRegister x y => wordFXYN 0x8 x y 0x4
  | .subtractYFromX x y => wordFXYN 0x8 x y 0x5
  | .shiftRight x y => wordFXYN 0x8 x y 0x6
  | .subtractXFromY x y => wordFXYN 0x8 x y 0x7
  | .shiftLeft x y => wordFXYN 0x8 x y 0xE
  | .skipRegisterNotEqual x y => wordFXYN 0x9 x y 0x0
  | .setIndex nnn => wordFA 0xA nnn
  | .jumpWithOffset nnn => wordFA 0xB nnn
  | .random x nn => wordFXB 0xC x nn
  | .display x y n => wordFXYN 0xD x y (regBits n)
  | .skipIfPressed x => wordFXB 0xE x 0x9E
  | .skipIfNotPressed x => wordFXB 0xE x 0xA1
  | .setRegisterDelayTimer x => wordFXB 0xF x 0x07
  | .getKey x => wordFXB 0xF x 0x0A
  | .setDelayTimer x => wordFXB 0xF x 0x15
  | .setSoundTimer x => wordFXB 0xF x 0x18
  | .addToIndex x => wordFXB 0xF x 0x1E
  | .fontCharacter x => wordFXB 0xF x 0x29
  | .decimalConversion x => wordFXB 0xF x 0x33
  | .store x => wordFXB 0xF x 0x55
  | .load x => wordFXB 0xF x 0x65

/-- The two bytes of an instruction, in the order they stand in memory (R74). -/
def encodeBytes (i : Instr) : List Byte := [highByte (encode i), lowByte (encode i)]

/-! ## The opcode table as rows (spec/opcode_table.json) -/

/-- One row: a word `w` is this operation's exactly when `w &&& mask = pattern`. -/
structure OpcodeRow where
  mnemonic : String
  pattern : Word
  mask : Word
deriving DecidableEq, Repr

/-- Rows 1 to 17 of the table. -/
def opcodeRowsLow : List OpcodeRow :=
  [⟨"ClearScreen", 0x00E0, 0xFFFF⟩, ⟨"Return", 0x00EE, 0xFFFF⟩, ⟨"Jump", 0x1000, 0xF000⟩,
   ⟨"CallSubroutine", 0x2000, 0xF000⟩, ⟨"SkipEqual", 0x3000, 0xF000⟩, ⟨"SkipNotEqual", 0x4000, 0xF000⟩,
   ⟨"SkipRegisterEqual", 0x5000, 0xF000⟩, ⟨"Set", 0x6000, 0xF000⟩, ⟨"Add", 0x7000, 0xF000⟩,
   ⟨"SetRegister", 0x8000, 0xF00F⟩, ⟨"OrRegister", 0x8001, 0xF00F⟩, ⟨"AndRegister", 0x8002, 0xF00F⟩,
   ⟨"XorRegister", 0x8003, 0xF00F⟩, ⟨"AddRegister", 0x8004, 0xF00F⟩, ⟨"SubtractYFromX", 0x8005, 0xF00F⟩,
   ⟨"ShiftRight", 0x8006, 0xF00F⟩, ⟨"SubtractXFromY", 0x8007, 0xF00F⟩]

/-- Rows 18 to 34 of the table. -/
def opcodeRowsHigh : List OpcodeRow :=
  [⟨"ShiftLeft", 0x800E, 0xF00F⟩, ⟨"SkipRegisterNotEqual", 0x9000, 0xF000⟩, ⟨"SetIndex", 0xA000, 0xF000⟩,
   ⟨"JumpWithOffset", 0xB000, 0xF000⟩, ⟨"Random", 0xC000, 0xF000⟩, ⟨"Display", 0xD000, 0xF000⟩,
   ⟨"SkipIfPressed", 0xE09E, 0xF0FF⟩, ⟨"SkipIfNotPressed", 0xE0A1, 0xF0FF⟩,
   ⟨"SetRegisterDelayTimer", 0xF007, 0xF0FF⟩, ⟨"GetKey", 0xF00A, 0xF0FF⟩, ⟨"SetDelayTimer", 0xF015, 0xF0FF⟩,
   ⟨"SetSoundTimer", 0xF018, 0xF0FF⟩, ⟨"AddToIndex", 0xF01E, 0xF0FF⟩, ⟨"FontCharacter", 0xF029, 0xF0FF⟩,
   ⟨"DecimalConversion", 0xF033, 0xF0FF⟩, ⟨"Store", 0xF055, 0xF0FF⟩, ⟨"Load", 0xF065, 0xF0FF⟩]

/-- The opcode table, 34 rows (R114, R120). -/
def opcodeTable : List OpcodeRow := opcodeRowsLow ++ opcodeRowsHigh

/-- The table's name of an instruction, letter for letter. -/
def Instr.mnemonic : Instr → String
  | .clearScreen => "ClearScreen" | .ret => "Return" | .jump _ => "Jump"
  | .callSubroutine _ => "CallSubroutine" | .skipEqual _ _ => "SkipEqual"
  | .skipNotEqual _ _ => "SkipNotEqual" | .skipRegisterEqual _ _ => "SkipRegisterEqual"
  | .set _ _ => "Set" | .add _ _ => "Add" | .setRegister _ _ => "SetRegister"
  | .orRegister _ _ => "OrRegister" | .andRegister _ _ => "AndRegister"
  | .xorRegister _ _ => "XorRegister" | .addRegister _ _ => "AddRegister"
  | .subtractYFromX _ _ => "SubtractYFromX" | .shiftRight _ _ => "ShiftRight"
  | .subtractXFromY _ _ => "SubtractXFromY" | .shiftLeft _ _ => "ShiftLeft"
  | .skipRegisterNotEqual _ _ => "SkipRegisterNotEqual" | .setIndex _ => "SetIndex"
  | .jumpWithOffset _ => "JumpWithOffset" | .random _ _ => "Random" | .display _ _ _ => "Display"
  | .skipIfPressed _ => "SkipIfPressed" | .skipIfNotPressed _ => "SkipIfNotPressed"
  | .setRegisterDelayTimer _ => "SetRegisterDelayTimer" | .getKey _ => "GetKey"
  | .setDelayTimer _ => "SetDelayTimer" | .setSoundTimer _ => "SetSoundTimer"
  | .addToIndex _ => "AddToIndex" | .fontCharacter _ => "FontCharacter"
  | .decimalConversion _ => "DecimalConversion" | .store _ => "Store" | .load _ => "Load"

end Sys2Proof
end

