-- ==== Sys2Proof/Config.lean ====
section
/-! DEFINITION. The implementation parameters of R10 (00_scope.md), and the values the spec leaves open. A constant the spec
leaves OPEN, or a free value, is opaque: no proof can see which value it is. -/

namespace Sys2Proof.Config

/-- MEM_SIZE (R10, R40): addresses 0x000 to 0xFFF. -/
def memSize : Nat := 0x1000

/-- The largest valid address (R71). -/
def maxAddr : Nat := 0xFFF

/-- PROGRAM_BASE, and the reset value of PC (R10, R79, R323). -/
def programBase : Nat := 0x200

/-- MAX_ROM (R10, R321): 4096 - 0x200 bytes. -/
def maxRom : Nat := 3584

/-- STACK_DEPTH (R10, R37). -/
def stackDepth : Nat := 16

/-- TIMER_HZ when the host does not set it (R10). No rule depends on it (R333). -/
def timerHzDefault : Nat := 60

/-- TIMER_HZ (R10, R306), which the host may set; 60 unless it does. OPEN: no rule, and no definition of this model, depends
on it (R333). -/
opaque timerHz : Nat

/-- IPS, instructions per second (R10, R306). OPEN: no rule, and no definition of this model, depends on it (R333). -/
opaque instructionsPerSecond : Nat

/-- FONT_BASE (R10, R46; D19: OPEN). The type is its one law, FONT_BASE + 80 <= 0x200: a `Fin 433` is at most 432. -/
opaque fontBase : Fin 433

/-- FREE VALUE: the byte `draw_byte()` returns (R270, D17). The argument is the number of draws made before it, which
`State.draws` counts; each draw may be any byte. -/
opaque randomByte : Nat → Byte

/-- FREE VALUE: what the 16-bit `value` of the fault record holds for a ROM longer than 65535 bytes. R321 says the value is
the length, R51 gives the field 16 bits; the spec does not say what the field holds when the length does not fit. -/
opaque oversizeRomLength : Nat → Word

end Sys2Proof.Config
end

