-- ==== Sys2Proof/Machine/State.lean ====
section
/-! DEFINITION. The state of the engine as plain data: every piece of state 10_state.md gives the machine (R30 to R52), two
fields of the model's own (`agenda`, `draws`), the reasons a step can stop, and the state after reset. -/

namespace Sys2Proof.Machine

/-- The fault kinds of R280. Taking one is a next state in mode Halted (R283). -/
inductive FaultKind where
  /-- Code 1: the fetched word is illegal (R115). -/
  | unrecognizedInstruction
  /-- Code 2: CallSubroutine with SP = 16 (R38). -/
  | stackOverflow
  /-- Code 3: Return with SP = 0 (R39). -/
  | stackUnderflow
  /-- Code 4: an address, an address range or a next PC leaves 0x000..0xFFF (R36, R71). -/
  | memoryOutOfBounds
  /-- Code 5: Load(rom) with more than 3584 bytes (R321). -/
  | romTooLarge
  /-- Code 6: SkipIfPressed or SkipIfNotPressed with Vx > 0x0F (R164, R285). -/
  | invalidKeyIndex
deriving DecidableEq, Repr

/-- exec_mode, the run-loop state (R47). -/
inductive ExecMode where
  /-- Fetch and execute the next instruction. -/
  | running
  /-- GetKey with destination `x` is suspended. -/
  | awaitingKey (x : Reg)
  /-- A fault of that kind ended the run. -/
  | halted (kind : FaultKind)
  /-- The host's stop request ended the run. -/
  | stopped
deriving DecidableEq, Repr

/-- fault_record (R48, R51, R281). -/
structure FaultRecord where
  kind : FaultKind
  pc : Word
  word : Option Word
  value : Option Word
deriving DecidableEq, Repr

/-- One atomic step of one agent (R16, R308). -/
inductive AgentStep where
  /-- The core's turn: one instruction, or the resume of a key wait (R36, R268). -/
  | core
  /-- The timer's tick (R295). -/
  | tick
  /-- The host presses key `k` (R300). -/
  | keyDown (k : Key)
  /-- The host releases key `k` (R300). -/
  | keyUp (k : Key)
  /-- The host acknowledges a redraw (R303). -/
  | ackRedraw
  /-- The host's stop request (R304). -/
  | stop
  /-- The host loads a ROM (R305). -/
  | load (rom : List Byte)
deriving DecidableEq, Repr

/-- The display buffer: 32 rows of 64 pixels (R44). -/
abbrev Screen := Vector (Vector Bool 64) 32

/-- Memory: the cells whose byte differs from its reset byte, by rising address (R40). What an unlisted address reads as is
`Memory.resetByte` of Machine/Ops.lean. -/
abbrev Memory := List Host.Cell

/-- The machine state (R30 to R52). -/
structure State where
  /-- V0..VF (R30). -/
  v : Vector Byte 16
  /-- PC (R34). -/
  pc : Word
  /-- I (R41). -/
  i : Word
  /-- The stack slots S[0]..S[15] (R37). -/
  stack : Vector Word 16
  /-- SP, the depth, 0..16 (R37). -/
  sp : Fin 17
  /-- memory_array (R40). -/
  mem : Memory
  /-- DT (R42). -/
  dt : Byte
  /-- ST (R43). -/
  st : Byte
  /-- pixel_buffer (R44). -/
  disp : Screen
  /-- The keypad, true meaning pressed (R45). -/
  key : Vector Bool 16
  /-- exec_mode (R47). -/
  mode : ExecMode
  /-- fault_record (R48). -/
  faultRecord : Option FaultRecord
  /-- needs_redraw (R49). -/
  needsRedraw : Bool
  /-- key_latch (R50). -/
  keyLatch : Option Key
  /-- The MODEL's own field: the agent steps the outside world has queued, next first. Empty means the core's turn. Log 1. -/
  agenda : List AgentStep
  /-- The MODEL's own field: how many random bytes have been drawn (R270). Log 2. -/
  draws : Nat
deriving DecidableEq, Repr

/-- Why the machine stops. -/
inductive Fault where
  /-- Raised by `step` when it is the core's turn in mode Halted(kind): the run has ended and the core has no step (R288,
  R327); the kind is surfaced to the caller. Safe: the model only stops. No instruction's meaning raises it. -/
  | halted (kind : FaultKind)
deriving DecidableEq, Repr

/-- Why a step is refused. -/
inductive Refusal where
  /-- Raised by `exec` alone, for an instruction that has no meaning yet. Safe: the model only stops. No arm raises it now. -/
  | notModelled (mnemonic : String)
  /-- Raised by `step` when it is the core's turn in mode Stopped: the host's stop ended the run and the core has no step
  (R288, R304, R327). Safe: the model only stops. No instruction's meaning raises it. -/
  | stopped
deriving DecidableEq, Repr

/-- The machine right after reset, R52 and R320, with no ROM byte: the load of the empty ROM. Memory lists nothing, since every
byte is at its reset value. `agenda` and `draws` are the model's own (logs 1 and 2). -/
def State.reset : State where
  v := Vector.replicate 16 0
  pc := 0x200
  i := 0
  stack := Vector.replicate 16 0
  sp := 0
  mem := []
  dt := 0
  st := 0
  disp := Vector.replicate 32 (Vector.replicate 64 false)
  key := Vector.replicate 16 false
  mode := .running
  faultRecord := none
  needsRedraw := false
  keyLatch := none
  agenda := []
  draws := 0

end Sys2Proof.Machine
end

