-- ==== Sys2Proof/Machine/Ops.lean ====
section
/-! DEFINITION. The named operations over registers, memory, stack and display, taking a fault, and the commit of an
instruction (10_state.md R30 to R50, 20_memory.md R70 to R82, 60_exceptions.md R280 to R290). Every meaning is written over
these. -/

namespace Sys2Proof.Machine

/-- The outcome type of every step and meaning. -/
abbrev Result := Host.Outcome State Fault Refusal

/-! ## Memory (R70 to R80) -/

/-- The glyph bytes of digits 0 to 7 (R46). -/
def glyphsLow : List Byte :=
  [0xF0, 0x90, 0x90, 0x90, 0xF0] ++ [0x20, 0x60, 0x20, 0x20, 0x70] ++ [0xF0, 0x10, 0xF0, 0x80, 0xF0] ++
  [0xF0, 0x10, 0xF0, 0x10, 0xF0] ++ [0x90, 0x90, 0xF0, 0x10, 0x10] ++ [0xF0, 0x80, 0xF0, 0x10, 0xF0] ++
  [0xF0, 0x80, 0xF0, 0x90, 0xF0] ++ [0xF0, 0x10, 0x20, 0x40, 0x40]

/-- The glyph bytes of digits 8 to F (R46). -/
def glyphsHigh : List Byte :=
  [0xF0, 0x90, 0xF0, 0x90, 0xF0] ++ [0xF0, 0x90, 0xF0, 0x10, 0xF0] ++ [0xF0, 0x90, 0xF0, 0x90, 0x90] ++
  [0xE0, 0x90, 0xE0, 0x90, 0xE0] ++ [0xF0, 0x80, 0x80, 0x80, 0xF0] ++ [0xE0, 0x90, 0x90, 0x90, 0xE0] ++
  [0xF0, 0x80, 0xF0, 0x80, 0xF0] ++ [0xF0, 0x80, 0xF0, 0x80, 0x80]

/-- FONT_GLYPHS, 16 glyphs of 5 bytes: byte `j` of glyph `d` is entry `5 * d + j` (R46). -/
def fontGlyphs : List Byte := glyphsLow ++ glyphsHigh

/-- What memory below 0x200 holds after a load: the font table at FONT_BASE, zero elsewhere (R52, R320). -/
def fontByte (a : Nat) : Byte :=
  if Config.fontBase.val ≤ a then fontGlyphs.getD (a - Config.fontBase.val) 0 else 0

/-- The byte at `a` after a load of the empty ROM (R52, R320): what an address that memory does not list reads as. -/
def Memory.resetByte (a : Nat) : Byte := if Config.programBase ≤ a then 0 else fontByte a

/-- `MemRead(a, 1)` (R72). Callers check bounds (R77). -/
def Memory.read : Memory → Nat → Byte
  | [], a => Memory.resetByte a
  | (b, v) :: rest, a => if b = a then v else Memory.read rest a

/-- Take every cell at `a` out of the list. -/
def Memory.erase : Memory → Nat → Memory
  | [], _ => []
  | (b, v) :: rest, a => if b = a then Memory.erase rest a else (b, v) :: Memory.erase rest a

/-- Put the cell `(a, v)` in its place by rising address. -/
def Memory.insert : Memory → Nat → Byte → Memory
  | [], a, v => [(a, v)]
  | (b, w) :: rest, a, v =>
      if a < b then (a, v) :: (b, w) :: rest
      else if a = b then (a, v) :: rest
      else (b, w) :: Memory.insert rest a v

/-- `MemWrite(a, 1, v)` (R73). Writing the reset byte removes the cell, so that equal memories are equal lists. Callers check
bounds (R77). -/
def Memory.write (m : Memory) (a : Nat) (v : Byte) : Memory :=
  if v = Memory.resetByte a then Memory.erase m a else Memory.insert m a v

/-- Every address of the list lies above `lo`, rises, is valid (R71), and its byte is not its reset byte. -/
def Memory.wfAbove (lo : Nat) : Memory → Bool
  | [] => true
  | (a, v) :: rest =>
      decide (lo ≤ a) && decide (a < Config.memSize) && !(v == Memory.resetByte a) && Memory.wfAbove (a + 1) rest

/-- The canonical form of memory. -/
def Memory.wf (m : Memory) : Bool := Memory.wfAbove 0 m

/-- The cells of `bytes` laid out from `a` upward, those at their reset byte left out. -/
def Memory.ofBytes : Nat → List Byte → Memory
  | _, [] => []
  | a, b :: rest => if b = Memory.resetByte a then Memory.ofBytes (a + 1) rest else (a, b) :: Memory.ofBytes (a + 1) rest

/-- Write `bytes` at `a`, `a + 1`, … in that order. -/
def Memory.writeList (m : Memory) (a : Nat) : List Byte → Memory
  | [] => m
  | b :: rest => Memory.writeList (m.write a b) (a + 1) rest

/-- The range `a .. a + n - 1` lies in 0x000..0xFFF; an empty range always does (R71, R77, R240). -/
def rangeValid (a n : Nat) : Bool := n = 0 || a + n - 1 ≤ Config.maxAddr

/-! ## Registers (R30 to R43) -/

/-- Read Vx (R30): no register is hardwired. -/
def State.reg (s : State) (x : Reg) : Byte := s.v[x]

/-- Write Vx (R30). -/
def State.setReg (s : State) (x : Reg) (b : Byte) : State := { s with v := s.v.set x b }

/-- Write PC (R34). -/
def State.setPc (s : State) (a : Word) : State := { s with pc := a }

/-- Write I (R41). -/
def State.setI (s : State) (a : Word) : State := { s with i := a }

/-- Replace memory. -/
def State.setMem (s : State) (m : Memory) : State := { s with mem := m }

/-- Write DT (R42). -/
def State.setDelay (s : State) (b : Byte) : State := { s with dt := b }

/-- Write ST (R43). -/
def State.setSound (s : State) (b : Byte) : State := { s with st := b }

/-- Replace the display buffer and ask for a redraw (R44, R49). -/
def State.setScreen (s : State) (d : Screen) : State := { s with disp := d, needsRedraw := true }

/-- Enter the key wait of GetKey (R263). -/
def State.enterWait (s : State) (x : Reg) : State := { s with mode := .awaitingKey x, keyLatch := none }

/-- Leave the key wait (R268). -/
def State.leaveWait (s : State) : State := { s with mode := .running, keyLatch := none }

/-- Count one random byte drawn (R270). -/
def State.countDraw (s : State) : State := { s with draws := s.draws + 1 }

/-- The registers V0, …, VF in order. -/
def allRegs : List Reg := [0, 1, 2, 3, 4, 5, 6, 7, 8, 9, 10, 11, 12, 13, 14, 15]

/-- The registers V0 to Vx, inclusive, in order (R224, R225). -/
def regsUpTo (x : Reg) : List Reg := allRegs.take (x.val + 1)

/-! ## Stack (R37 to R39) -/

/-- Push (R38); none when SP = 16. -/
def State.push (s : State) (a : Word) : Option State :=
  if h : s.sp.val < 16 then
    some { s with stack := s.stack.set s.sp.val a, sp := ⟨s.sp.val + 1, by omega⟩ }
  else none

/-- Pop (R39): the top entry and the state after; none when SP = 0. The slot keeps its value. -/
def State.pop (s : State) : Option (Word × State) :=
  if h : 0 < s.sp.val then
    some (s.stack[s.sp.val - 1]'(by omega), { s with sp := ⟨s.sp.val - 1, by omega⟩ })
  else none

/-! ## Fetch (R75, R101) -/

/-- The big-endian word at PC; none when its second byte lies outside memory. -/
def State.fetch (s : State) : Option Word :=
  if s.pc.toNat + 1 ≤ Config.maxAddr then
    some (wordOfBytes (s.mem.read s.pc.toNat) (s.mem.read (s.pc.toNat + 1)))
  else none

/-- Store the two bytes of a word at `a` and `a + 1`, high byte first. -/
def Memory.writeWord (m : Memory) (a : Nat) (w : Word) : Memory :=
  m.writeList a [highByte w, lowByte w]

/-- `s` with the word where the core's next fetch reads it: mode Running and no agent step before it, PC unchanged unless no
whole word fits there (then the entry point 0x200). A log entry says what this stands for. -/
def State.placeWord (s : State) (w : Word) : State :=
  let a : Word := if s.pc.toNat + 1 ≤ Config.maxAddr then s.pc else 0x200
  { s with pc := a, mem := s.mem.writeWord a.toNat w, mode := .running, agenda := [] }

/-! ## Taking a fault (R280 to R284) -/

/-- The code of a fault kind (R280). -/
def FaultKind.code : FaultKind → Nat
  | .unrecognizedInstruction => 1
  | .stackOverflow => 2
  | .stackUnderflow => 3
  | .memoryOutOfBounds => 4
  | .romTooLarge => 5
  | .invalidKeyIndex => 6

/-- Fault entry (R283), the one operation every fault of a core step goes through. The record holds the faulting instruction's
address, its word (absent when it could not be fetched) and the offending value (R281). The word is read again at PC, where the
fetch read it: nothing has been committed since. -/
def State.takeFault (s : State) (kind : FaultKind) (value : Option Word) : State :=
  { s with
    mode := .halted kind
    faultRecord := some { kind := kind, pc := s.pc, word := s.fetch, value := value }
    keyLatch := none }

/-- `raise <Kind>(info)` (R13, R283): the step's result is the fault entry, taken from the state before the instruction. -/
def raise (s : State) (kind : FaultKind) (value : Option Word) : Result :=
  .next (s.takeFault kind value)

/-- `raise MemoryOutOfBounds(a)`: the offending address as the record's 16-bit value (R281). -/
def raiseOutOfBounds (s : State) (a : Nat) : Result :=
  raise s .memoryOutOfBounds (some (BitVec.ofNat 16 a))

/-- The commit of R36: `old` is the state before the instruction, `new` holds its writes. A next PC above 0xFFF faults with
nothing committed; otherwise the writes land together with PC. -/
def commit (old new : State) (nextPc : Nat) : Result :=
  if nextPc ≤ Config.maxAddr then .next (new.setPc (BitVec.ofNat 16 nextPc))
  else raiseOutOfBounds old nextPc

/-- The commit of an instruction that neither skips nor transfers: next PC `pc + 2` (R35). -/
def commitNext (old new : State) : Result := commit old new (old.pc.toNat + 2)

/-- The commit of a skip: next PC `pc + 4` when its condition holds, `pc + 2` otherwise, and no other write (R35, R166). -/
def commitSkip (s : State) (taken : Bool) : Result :=
  commit s s (s.pc.toNat + if taken then 4 else 2)

end Sys2Proof.Machine
end

