-- ==== Sys2Proof/Machine/Agents.lean ====
section
/-! DEFINITION. The steps of the timer and of the host, and the outputs of the block (60_exceptions.md R288, R295, R300 to R308,
70_reset_and_hazards.md R320 to R324). -/

namespace Sys2Proof.Machine

/-- Running or AwaitingKey: not a terminal mode (R288). -/
def ExecMode.live : ExecMode → Bool
  | .running => true
  | .awaitingKey _ => true
  | .halted _ => false
  | .stopped => false

/-- The state after a step of the timer or the host that is taken in Running and AwaitingKey only, where it gives `next`: in a
terminal mode every step but a load is not taken (R288 with I16 of 93_implementation_defined.md), so nothing changes. -/
def State.ifLive (s next : State) : State := if s.mode.live then next else s

/-- One count toward 0: a Counting timer loses 1, an Idle timer stays 0 (R295). -/
def countDown (b : Byte) : Byte := if b = 0 then 0 else b - 1

/-- The tick, R295: both timers together. -/
def State.tick (s : State) : State := s.ifLive { s with dt := countDown s.dt, st := countDown s.st }

/-- The key latch after key `k` became pressed: the first edge of a wait is kept (R267, R300). -/
def State.latchAfter (s : State) (k : Key) : Option Key :=
  match s.mode, s.keyLatch with
  | .awaitingKey _, none => some k
  | _, latch => latch

/-- KeyDown(k), R300: a key already pressed changes nothing. -/
def State.keyDown (s : State) (k : Key) : State :=
  s.ifLive (if s.key[k] then s else { s with key := s.key.set k true, keyLatch := s.latchAfter k })

/-- KeyUp(k), R300. -/
def State.keyUp (s : State) (k : Key) : State := s.ifLive { s with key := s.key.set k false }

/-- AckRedraw, R303. -/
def State.ackRedraw (s : State) : State := s.ifLive { s with needsRedraw := false }

/-- Stop, R304: no effect in a terminal mode. -/
def State.stop (s : State) : State := s.ifLive { s with mode := .stopped, keyLatch := none }

/-- The state after a load, but for its ROM bytes (R320): every piece of the machine's state at its reset value. The model's own
`agenda` and `draws` are no state of the machine and go on. -/
def State.reinitialise (s : State) : State := { State.reset with agenda := s.agenda, draws := s.draws }

/-- The record's 16-bit value for a ROM of `n` bytes that does not fit: its length (R281, R321). -/
def romLengthValue (n : Nat) : Word := if n < 2 ^ 16 then BitVec.ofNat 16 n else Config.oversizeRomLength n

/-- Load(rom), R320 and R321. -/
def State.loadRom (s : State) (rom : List Byte) : State :=
  if rom.length ≤ Config.maxRom then
    { s.reinitialise with mem := Memory.ofBytes Config.programBase rom }
  else
    { s.reinitialise with
      mode := .halted .romTooLarge
      faultRecord := some
        { kind := .romTooLarge, pc := 0x200, word := none, value := some (romLengthValue rom.length) } }

/-- A host update of the whole keypad to `target`, as the single-key steps of R301: one per changed key, in the order `order`
lists the keys. The host does not fix the order: a claim must hold for each. -/
def keyUpdate (order : List Key) (target : Vector Bool 16) (s : State) : List AgentStep :=
  order.filterMap fun k =>
    if s.key[k] = target[k] then none else if target[k] then some (.keyDown k) else some (.keyUp k)

/-- The outputs of the block (R307, R308). -/
structure Outputs where
  /-- The 2048 pixels, row-major: entry `r * 64 + c` is disp[r][c] (R44, R302). -/
  display : List Bool
  needsRedraw : Bool
  /-- tone_on = (ST > 0) (R43). -/
  toneOn : Bool
  /-- exec_mode with AwaitingKey's x, and the fault record (R308). -/
  mode : ExecMode
  faultRecord : Option FaultRecord
deriving DecidableEq, Repr

/-- Each output is a pure function of the committed state (R307); reading one changes nothing (R302). -/
def State.outputs (s : State) : Outputs where
  display := (s.disp.toList.map Vector.toList).flatten
  needsRedraw := s.needsRedraw
  toneOn := 0 < s.st.toNat
  mode := s.mode
  faultRecord := s.faultRecord

end Sys2Proof.Machine
end

