-- ==== Sys2Proof/Machine/Flags.lean ====
section
/-! DEFINITION. The flag computations of 43_arithmetic_flags.md (R200 to R207) and the write of VF, the only flag (10_state.md
R31, R53). -/

namespace Sys2Proof.Machine

/-- A flag as the byte VF takes: 1 or 0. -/
def flagByte (f : Bool) : Byte := if f then 1 else 0

/-- Carry of an addition: the unsigned sum exceeds 255 (R201). -/
def carryOut (a b : Byte) : Bool := 255 < a.toNat + b.toNat

/-- No borrow in `a - b`: `a >= b` (R202, R203). -/
def noBorrow (a b : Byte) : Bool := b.toNat ≤ a.toNat

/-- The bit a right shift by one drops: bit 0 (R204). -/
def shiftedOutLow (b : Byte) : Bool := b.getLsbD 0

/-- The bit a left shift by one drops: bit 7 (R205). -/
def shiftedOutHigh (b : Byte) : Bool := b.getLsbD 7

/-- Write the flag to VF (R31). -/
def State.setFlag (s : State) (f : Bool) : State := s.setReg 0xF (flagByte f)

/-- Result first, flag last (R200): with x = F the flag is what VF holds afterwards. -/
def State.setResultAndFlag (s : State) (x : Reg) (result : Byte) (f : Bool) : State := (s.setReg x result).setFlag f

end Sys2Proof.Machine
end

