-- ==== Sys2Proof/Machine/Operands.lean ====
section
/-! DEFINITION. The operand forms: what an operand field means as a value, an address or a screen position (30_encoding.md
R105, 44_index_memory.md R226, 45_display.md R240, R242). Addresses are unbounded integers (20_memory.md R71). -/

namespace Sys2Proof.Machine

/-- `zext_16(nnn)`, an address operand (R105). -/
def addrOperand (nnn : Addr12) : Word := nnn.setWidth 16

/-- `zext_16(b)` of a byte (R105). -/
def zextByte (b : Byte) : Word := b.setWidth 16

/-- The one data addressing mode (R226): I plus a constant offset, not reduced. -/
def State.indexAddr (s : State) (k : Nat) : Nat := s.i.toNat + k

/-- The target of JumpWithOffset: `zext_16(nnn) + zext_16(V0)` as an unbounded sum (R144). -/
def State.offsetTarget (s : State) (nnn : Addr12) : Nat := nnn.toNat + (s.reg 0).toNat

/-- The sum AddToIndex takes: `zext_16(I) + zext_16(Vx)` as an unbounded sum (R221). -/
def State.indexSum (s : State) (x : Reg) : Nat := s.i.toNat + (s.reg x).toNat

/-- The address of the glyph of the low hex digit of `b`: `FONT_BASE + 5 * (b AND 0x0F)` (R222). -/
def glyphAddr (b : Byte) : Word := BitVec.ofNat 16 (Config.fontBase.val + 5 * (b &&& 0x0F).toNat)

/-- The key a register value names, none when it is above 0x0F: it is not masked (R164, R285). -/
def keyOperand (b : Byte) : Option Key := if h : b.toNat < 16 then some ⟨b.toNat, h⟩ else none

/-- The start column of a sprite, Vx mod 64 (R242). -/
def spriteColumn (b : Byte) : Nat := b.toNat % 64

/-- The start row of a sprite, Vy mod 32 (R242). -/
def spriteRow (b : Byte) : Nat := b.toNat % 32

/-- The three decimal digits of a byte, most significant first, as values 0..9 (R223). -/
def decimalDigits (b : Byte) : List Byte :=
  [BitVec.ofNat 8 (b.toNat / 100), BitVec.ofNat 8 (b.toNat / 10 % 10), BitVec.ofNat 8 (b.toNat % 10)]

end Sys2Proof.Machine
end

