-- ==== Sys2Proof/Machine/Arithmetic.lean ====
section
/-! DEFINITION. Arithmetic with flags (43_arithmetic_flags.md R200 to R208). Operands are read first, the result is written to
Vx, the flag to VF last (R200). The shift source is Vy (R208). -/

namespace Sys2Proof.Machine

/-- AddRegister, R201. -/
def execAddRegister (x y : Reg) (s : State) : Result :=
  commitNext s (s.setResultAndFlag x (s.reg x + s.reg y) (carryOut (s.reg x) (s.reg y)))

/-- SubtractYFromX, R202. -/
def execSubtractYFromX (x y : Reg) (s : State) : Result :=
  commitNext s (s.setResultAndFlag x (s.reg x - s.reg y) (noBorrow (s.reg x) (s.reg y)))

/-- SubtractXFromY, R203. -/
def execSubtractXFromY (x y : Reg) (s : State) : Result :=
  commitNext s (s.setResultAndFlag x (s.reg y - s.reg x) (noBorrow (s.reg y) (s.reg x)))

/-- ShiftRight, R204. -/
def execShiftRight (x y : Reg) (s : State) : Result :=
  commitNext s (s.setResultAndFlag x (s.reg y >>> 1) (shiftedOutLow (s.reg y)))

/-- ShiftLeft, R205. -/
def execShiftLeft (x y : Reg) (s : State) : Result :=
  commitNext s (s.setResultAndFlag x (s.reg y <<< 1) (shiftedOutHigh (s.reg y)))

end Sys2Proof.Machine
end

