-- ==== Sys2Proof/Machine/Control.lean ====
section
/-! DEFINITION. The control-flow family (40_control_flow.md R140 to R145). -/

namespace Sys2Proof.Machine

/-- The display with every pixel off (R140). -/
def blankScreen : Screen := Vector.replicate 32 (Vector.replicate 64 false)

/-- ClearScreen, R140. -/
def execClearScreen (s : State) : Result := commitNext s (s.setScreen blankScreen)

/-- Return, R143: the popped value is the next PC, with nothing added; on either fault SP is unchanged. -/
def execReturn (s : State) : Result :=
  match s.pop with
  | none => raise s .stackUnderflow none
  | some (target, s') => commit s s' target.toNat

/-- Jump, R141. -/
def execJump (nnn : Addr12) (s : State) : Result := commit s s (addrOperand nnn).toNat

/-- CallSubroutine, R142: the address of the next instruction is pushed, and it may be 0x1000. -/
def execCallSubroutine (nnn : Addr12) (s : State) : Result :=
  match s.push (BitVec.ofNat 16 (s.pc.toNat + 2)) with
  | none => raise s .stackOverflow none
  | some s' => commit s s' (addrOperand nnn).toNat

/-- JumpWithOffset, R144: the offset register is always V0. -/
def execJumpWithOffset (nnn : Addr12) (s : State) : Result := commit s s (s.offsetTarget nnn)

end Sys2Proof.Machine
end

