-- ==== Sys2Proof/Machine/Display.lean ====
section
/-! DEFINITION. Display (45_display.md R240 to R244), pixel by pixel in the order of R240's pseudocode. -/

namespace Sys2Proof.Machine

/-- The display buffer and the collision flag while a sprite is drawn. -/
structure Canvas where
  disp : Screen
  collision : Bool
deriving DecidableEq, Repr

/-- XOR one lit sprite pixel onto the canvas: a pixel that was on is a collision (R240). -/
def Canvas.flip (d : Canvas) (row : Fin 32) (col : Fin 64) : Canvas :=
  { disp := d.disp.set row (d.disp[row].set col (!d.disp[row][col]))
    collision := d.collision || d.disp[row][col] }

/-- The column of sprite pixel `c`, wrapped within the row (R242). -/
def wrapColumn (x0 c : Nat) : Fin 64 := ⟨(x0 + c) % 64, Nat.mod_lt _ (by decide)⟩

/-- Draw pixel `c` of the row byte `b`: bit 7 is the leftmost (R241). -/
def Canvas.drawPixel (b : Byte) (x0 : Nat) (row : Fin 32) (d : Canvas) (c : Nat) : Canvas :=
  if b.getLsbD (7 - c) then d.flip row (wrapColumn x0 c) else d

/-- Draw the 8 pixels of one row byte. -/
def Canvas.drawByte (d : Canvas) (b : Byte) (x0 : Nat) (row : Fin 32) : Canvas :=
  (List.range 8).foldl (Canvas.drawPixel b x0 row) d

/-- Draw sprite row `r`, the byte at I + r; a row past the bottom edge is clipped (R242). -/
def drawRow (s : State) (x0 y0 : Nat) (d : Canvas) (r : Nat) : Canvas :=
  if h : y0 + r < 32 then d.drawByte (s.mem.read (s.indexAddr r)) x0 ⟨y0 + r, h⟩ else d

/-- Draw the `n` rows of the sprite at I, top row first (R240). -/
def drawSprite (s : State) (x0 y0 n : Nat) : Canvas :=
  (List.range n).foldl (drawRow s x0 y0) { disp := s.disp, collision := false }

/-- Display, R240. The range check covers clipped rows too; with n = 0 nothing is read or drawn and VF is 0 (R243). -/
def execDisplay (x y : Reg) (n : Height) (s : State) : Result :=
  if rangeValid (s.indexAddr 0) n.val then
    let out := drawSprite s (spriteColumn (s.reg x)) (spriteRow (s.reg y)) n.val
    commitNext s ((s.setScreen out.disp).setFlag out.collision)
  else raiseOutOfBounds s (s.indexAddr (n.val - 1))

end Sys2Proof.Machine
end

