-- ==== Sys2Proof/Machine/IndexMemory.lean ====
section
/-! DEFINITION. Index register and memory operations (44_index_memory.md R220 to R226). Ranges are checked whole before any
access; the fault's value is the highest address of the range. I is never changed by an access (R226). -/

namespace Sys2Proof.Machine

/-- SetIndex, R220. -/
def execSetIndex (nnn : Addr12) (s : State) : Result := commitNext s (s.setI (addrOperand nnn))

/-- AddToIndex, R221: a sum above 0xFFF faults, checked before the next PC; no flag. -/
def execAddToIndex (x : Reg) (s : State) : Result :=
  if s.indexSum x ≤ Config.maxAddr then commitNext s (s.setI (BitVec.ofNat 16 (s.indexSum x)))
  else raiseOutOfBounds s (s.indexSum x)

/-- FontCharacter, R222. -/
def execFontCharacter (x : Reg) (s : State) : Result := commitNext s (s.setI (glyphAddr (s.reg x)))

/-- DecimalConversion, R223. -/
def execDecimalConversion (x : Reg) (s : State) : Result :=
  if rangeValid (s.indexAddr 0) 3 then
    commitNext s (s.setMem (s.mem.writeList (s.indexAddr 0) (decimalDigits (s.reg x))))
  else raiseOutOfBounds s (s.indexAddr 2)

/-- Store, R224. -/
def execStore (x : Reg) (s : State) : Result :=
  if rangeValid (s.indexAddr 0) (x.val + 1) then
    commitNext s (s.setMem (s.mem.writeList (s.indexAddr 0) ((regsUpTo x).map s.reg)))
  else raiseOutOfBounds s (s.indexAddr x.val)

/-- Write V0 to Vx from memory at I (R225). -/
def loadRegs (s : State) (x : Reg) : State :=
  (regsUpTo x).foldl (fun t r => t.setReg r (s.mem.read (s.indexAddr r.val))) s

/-- Load, R225. -/
def execLoad (x : Reg) (s : State) : Result :=
  if rangeValid (s.indexAddr 0) (x.val + 1) then commitNext s (loadRegs s x)
  else raiseOutOfBounds s (s.indexAddr x.val)

end Sys2Proof.Machine
end

