-- ==== Sys2Proof/Machine/RegisterOps.lean ====
section
/-! DEFINITION. Immediate and register operations without flags (42_register_ops.md R180 to R186). -/

namespace Sys2Proof.Machine

/-- Set, R180. -/
def execSet (x : Reg) (nn : Byte) (s : State) : Result := commitNext s (s.setReg x nn)

/-- Add, R181: modulo 256, no flag. -/
def execAdd (x : Reg) (nn : Byte) (s : State) : Result := commitNext s (s.setReg x (s.reg x + nn))

/-- SetRegister, R182. -/
def execSetRegister (x y : Reg) (s : State) : Result := commitNext s (s.setReg x (s.reg y))

/-- OrRegister, R183: VF is not reset. -/
def execOrRegister (x y : Reg) (s : State) : Result := commitNext s (s.setReg x (s.reg x ||| s.reg y))

/-- AndRegister, R184: VF is not reset. -/
def execAndRegister (x y : Reg) (s : State) : Result := commitNext s (s.setReg x (s.reg x &&& s.reg y))

/-- XorRegister, R185: VF is not reset. -/
def execXorRegister (x y : Reg) (s : State) : Result := commitNext s (s.setReg x (s.reg x ^^^ s.reg y))

end Sys2Proof.Machine
end

