-- ==== Sys2Proof/Machine/Skips.lean ====
section
/-! DEFINITION. The skip family (41_skips.md R160 to R166). -/

namespace Sys2Proof.Machine

/-- SkipEqual, R160. -/
def execSkipEqual (x : Reg) (nn : Byte) (s : State) : Result := commitSkip s (s.reg x == nn)

/-- SkipNotEqual, R161. -/
def execSkipNotEqual (x : Reg) (nn : Byte) (s : State) : Result := commitSkip s (s.reg x != nn)

/-- SkipRegisterEqual, R162. -/
def execSkipRegisterEqual (x y : Reg) (s : State) : Result := commitSkip s (s.reg x == s.reg y)

/-- SkipRegisterNotEqual, R163. -/
def execSkipRegisterNotEqual (x y : Reg) (s : State) : Result := commitSkip s (s.reg x != s.reg y)

/-- A skip on the key whose index is Vx, taken when its flag equals `want`; an index above 0x0F raises InvalidKeyIndex before
the next-PC check (R164, R165, R290). -/
def skipOnKey (x : Reg) (want : Bool) (s : State) : Result :=
  match keyOperand (s.reg x) with
  | none => raise s .invalidKeyIndex (some (zextByte (s.reg x)))
  | some k => commitSkip s (s.key[k] == want)

/-- SkipIfPressed, R164. -/
def execSkipIfPressed (x : Reg) (s : State) : Result := skipOnKey x true s

/-- SkipIfNotPressed, R165. -/
def execSkipIfNotPressed (x : Reg) (s : State) : Result := skipOnKey x false s

end Sys2Proof.Machine
end

