-- ==== Sys2Proof/Machine/TimersInput.lean ====
section
/-! DEFINITION. Timers, input and random (46_timers_input.md R260 to R270), and the resume step of GetKey (R268). -/

namespace Sys2Proof.Machine

/-- SetRegisterDelayTimer, R260. -/
def execSetRegisterDelayTimer (x : Reg) (s : State) : Result := commitNext s (s.setReg x s.dt)

/-- SetDelayTimer, R261. -/
def execSetDelayTimer (x : Reg) (s : State) : Result := commitNext s (s.setDelay (s.reg x))

/-- SetSoundTimer, R262. -/
def execSetSoundTimer (x : Reg) (s : State) : Result := commitNext s (s.setSound (s.reg x))

/-- GetKey, R263: the core suspends, PC stays at the GetKey, Vx is written at the resume. -/
def execGetKey (x : Reg) (s : State) : Result := .next (s.enterWait x)

/-- `draw_byte()`: the free byte of the next draw (R270). -/
def State.drawByte (s : State) : Byte := Config.randomByte s.draws

/-- Random, R264. -/
def execRandom (x : Reg) (nn : Byte) (s : State) : Result :=
  commitNext s ((s.setReg x (s.drawByte &&& nn)).countDraw)

/-- The index of a key as the byte GetKey writes (R268). -/
def keyByte (k : Key) : Byte := BitVec.ofNat 8 k.val

/-- The resume step, R268: mode is AwaitingKey(x) and key_latch is `k`. -/
def resumeKeyWait (x : Reg) (k : Key) (s : State) : Result :=
  commitNext s ((s.setReg x (keyByte k)).leaveWait)

end Sys2Proof.Machine
end

