-- ==== Sys2Proof/Machine/Dispatch.lean ====
section
/-! DEFINITION. The instruction_dispatch_mux (30_encoding.md R119): one arm per operation, each one call of its meaning. -/

namespace Sys2Proof.Machine

def exec (i : Instr) (s : State) : Host.Outcome State Fault Refusal :=
  match i with
  | .clearScreen => Sys2Proof.Machine.execClearScreen s
  | .ret => Sys2Proof.Machine.execReturn s
  | .jump nnn => Sys2Proof.Machine.execJump nnn s
  | .callSubroutine nnn => Sys2Proof.Machine.execCallSubroutine nnn s
  | .skipEqual x nn => Sys2Proof.Machine.execSkipEqual x nn s
  | .skipNotEqual x nn => Sys2Proof.Machine.execSkipNotEqual x nn s
  | .skipRegisterEqual x y => Sys2Proof.Machine.execSkipRegisterEqual x y s
  | .set x nn => Sys2Proof.Machine.execSet x nn s
  | .add x nn => Sys2Proof.Machine.execAdd x nn s
  | .setRegister x y => Sys2Proof.Machine.execSetRegister x y s
  | .orRegister x y => Sys2Proof.Machine.execOrRegister x y s
  | .andRegister x y => Sys2Proof.Machine.execAndRegister x y s
  | .xorRegister x y => Sys2Proof.Machine.execXorRegister x y s
  | .addRegister x y => Sys2Proof.Machine.execAddRegister x y s
  | .subtractYFromX x y => Sys2Proof.Machine.execSubtractYFromX x y s
  | .shiftRight x y => Sys2Proof.Machine.execShiftRight x y s
  | .subtractXFromY x y => Sys2Proof.Machine.execSubtractXFromY x y s
  | .shiftLeft x y => Sys2Proof.Machine.execShiftLeft x y s
  | .skipRegisterNotEqual x y => Sys2Proof.Machine.execSkipRegisterNotEqual x y s
  | .setIndex nnn => Sys2Proof.Machine.execSetIndex nnn s
  | .jumpWithOffset nnn => Sys2Proof.Machine.execJumpWithOffset nnn s
  | .random x nn => Sys2Proof.Machine.execRandom x nn s
  | .display x y n => Sys2Proof.Machine.execDisplay x y n s
  | .skipIfPressed x => Sys2Proof.Machine.execSkipIfPressed x s
  | .skipIfNotPressed x => Sys2Proof.Machine.execSkipIfNotPressed x s
  | .setRegisterDelayTimer x => Sys2Proof.Machine.execSetRegisterDelayTimer x s
  | .getKey x => Sys2Proof.Machine.execGetKey x s
  | .setDelayTimer x => Sys2Proof.Machine.execSetDelayTimer x s
  | .setSoundTimer x => Sys2Proof.Machine.execSetSoundTimer x s
  | .addToIndex x => Sys2Proof.Machine.execAddToIndex x s
  | .fontCharacter x => Sys2Proof.Machine.execFontCharacter x s
  | .decimalConversion x => Sys2Proof.Machine.execDecimalConversion x s
  | .store x => Sys2Proof.Machine.execStore x s
  | .load x => Sys2Proof.Machine.execLoad x s

end Sys2Proof.Machine
end

