-- ==== Sys2Proof/Machine/Run.lean ====
section
/-! DEFINITION. The step of each agent, the core's among them (10_state.md R36, 46_timers_input.md R267 to R269, 60_exceptions.md
R288, R290). -/

namespace Sys2Proof.Machine

/-- step_core in mode Running (R36): fetch bounds, then decode, then the operation with its own checks (R290). -/
def runInstruction (s : State) : Result :=
  match s.fetch with
  | none => raiseOutOfBounds s (s.pc.toNat + 1)
  | some w =>
    match decode w with
    | .error _ => raise s .unrecognizedInstruction (some w)
    | .ok i => exec i s

/-- The core's turn. While a key is awaited and none is latched the core has no enabled step and holds (R267, R269): the state
stays as it is. In a terminal mode the run has ended (R288, R327): no next state. -/
def coreTurn (s : State) : Result :=
  match s.mode with
  | .running => runInstruction s
  | .awaitingKey x =>
    match s.keyLatch with
    | some k => resumeKeyWait x k s
    | none => .next s
  | .halted kind => .fault (.halted kind)
  | .stopped => .refused .stopped

/-- One atomic step of one agent (R16, R83). -/
def agentStep (e : AgentStep) (s : State) : Result :=
  match e with
  | .core => coreTurn s
  | .tick => .next s.tick
  | .keyDown k => .next (s.keyDown k)
  | .keyUp k => .next (s.keyUp k)
  | .ackRedraw => .next s.ackRedraw
  | .stop => .next s.stop
  | .load rom => .next (s.loadRom rom)

/-- The agent whose turn it is: the first of the agenda, or the core when nothing is queued. -/
def State.turn (s : State) : AgentStep := s.agenda.headD .core

/-- `s` with the step about to be taken no longer queued. -/
def State.dequeue (s : State) : State := { s with agenda := s.agenda.tail }

/-- The next step of the total order (R83, R291). -/
def runTurn (s : State) : Result := agentStep s.turn s.dequeue

end Sys2Proof.Machine
end

