-- ==== Sys2Proof/Machine/Step.lean ====
section
/-! DEFINITION. The machine's step: one atomic step of the agent whose turn it is (00_scope.md R16, 20_memory.md R83). -/

namespace Sys2Proof.Machine

/-- One step. -/
def step (s : State) : Host.Outcome State Fault Refusal := runTurn s

/-- `s` with the instruction whose table-numbered bits are `w` where the core's next fetch reads it, and the core's turn next. -/
def State.withFetchWord (s : State) (nbits w : Nat) : State := s.placeWord (BitVec.ofNat 16 (w % 2 ^ nbits))

end Sys2Proof.Machine
end

