-- ==== Sys2Proof/Safety.lean ====
section
/-! DEFINITION. The terms claims are stated in: what a safe run is, the invariant every step keeps, the shapes an instruction's
effect can have, what R33 says each operation reads and writes, the closed form of a drawn sprite, and fair runs (R296). -/

namespace Sys2Proof.Machine

/-! ## Safe states and the invariant -/

/-- No fault has ended the run (R282, R327). -/
def State.Safe (s : State) : Prop := ∀ k, s.mode ≠ .halted k

/-- What holds of every state the machine can reach from a load. -/
structure State.Inv (s : State) : Prop where
  /-- PC stays in 0x000..0xFFF (R34, R36). -/
  pcInRange : s.pc.toNat ≤ 0xFFF
  /-- I stays in 0x000..0xFFF (R41). -/
  iInRange : s.i.toNat ≤ 0xFFF
  /-- Memory is in its canonical form: every listed cell is valid (R71) and differs from its reset byte. -/
  memCanonical : s.mem.wf = true
  /-- 0x1000 is the only value above 0xFFF a stack entry can hold (R143). -/
  stackInRange : ∀ k : Fin 16, k.val < s.sp.val → s.stack[k].toNat ≤ 0x1000
  /-- key_latch is none in every mode but AwaitingKey (R50). -/
  latchOnlyInWait : s.keyLatch ≠ none → ∃ x, s.mode = .awaitingKey x
  /-- fault_record is present exactly in Halted, and holds the mode's kind (R47, R48). -/
  recordIffHalted : ∀ k, s.mode = .halted k ↔ ∃ r, s.faultRecord = some r ∧ r.kind = k
  /-- During a key wait PC stays at the GetKey it is for (R263, R267). -/
  waitAtGetKey : ∀ x, s.mode = .awaitingKey x → ∃ w, s.fetch = some w ∧ decode w = .ok (.getKey x)

/-! ## Shapes of an instruction's effect -/

/-- The state MemoryOutOfBounds leaves when `a` is the offending address (R281, R283). -/
def State.outOfBounds (s : State) (a : Nat) : State := s.takeFault .memoryOutOfBounds (some (BitVec.ofNat 16 a))

/-- `i` at `s` commits exactly the writes of `new` and moves PC on by 2, or faults when the next PC leaves memory and commits
nothing (R35, R36). -/
def Sequential (i : Instr) (s new : State) : Prop :=
  (s.pc.toNat + 2 ≤ 0xFFF → exec i s = .next { new with pc := BitVec.ofNat 16 (s.pc.toNat + 2) }) ∧
  (0xFFF < s.pc.toNat + 2 → exec i s = .next (s.outOfBounds (s.pc.toNat + 2)))

/-- `i` at `s` is a skip on `cond`: nothing but PC changes, by 4 when `cond` holds and by 2 otherwise, or the next-PC check
faults (R35, R36, R160 to R165). -/
def Skips (i : Instr) (s : State) (cond : Prop) : Prop :=
  (cond →
    (s.pc.toNat + 4 ≤ 0xFFF → exec i s = .next { s with pc := BitVec.ofNat 16 (s.pc.toNat + 4) }) ∧
    (0xFFF < s.pc.toNat + 4 → exec i s = .next (s.outOfBounds (s.pc.toNat + 4)))) ∧
  (¬ cond →
    (s.pc.toNat + 2 ≤ 0xFFF → exec i s = .next { s with pc := BitVec.ofNat 16 (s.pc.toNat + 2) }) ∧
    (0xFFF < s.pc.toNat + 2 → exec i s = .next (s.outOfBounds (s.pc.toNat + 2))))

/-- `i` at `s` completes with `result` in Vx and then the flag in VF (so that with x = F the flag is what VF holds), and
changes nothing else but PC; or the next-PC check faults (R200, R36). -/
def FlagOperation (i : Instr) (s : State) (x : Reg) (result : Nat) (flag : Prop) : Prop :=
  (s.pc.toNat + 2 ≤ 0xFFF → ∃ t, exec i s = .next t ∧
    (flag → t.v[(0xF : Reg)] = 1) ∧ (¬ flag → t.v[(0xF : Reg)] = 0) ∧
    (x ≠ 0xF → t.v[x].toNat = result) ∧
    (∀ r : Reg, r ≠ x → r ≠ 0xF → t.v[r] = s.v[r]) ∧
    (∀ a, t.mem.read a = s.mem.read a) ∧
    t = { s with v := t.v, pc := BitVec.ofNat 16 (s.pc.toNat + 2) }) ∧
  (0xFFF < s.pc.toNat + 2 → exec i s = .next (s.outOfBounds (s.pc.toNat + 2)))

/-- Apply `f` to the next state of a result. -/
def mapNext (f : State → State) : Result → Result
  | .next s => .next (f s)
  | .fault r => .fault r
  | .refused r => .refused r

/-! ## The register table of R33 -/

/-- The registers an operation reads. -/
def readsReg : Instr → Reg → Bool
  | .skipEqual x _, r | .skipNotEqual x _, r | .add x _, r | .skipIfPressed x, r | .skipIfNotPressed x, r
  | .addToIndex x, r | .fontCharacter x, r | .decimalConversion x, r | .setDelayTimer x, r
  | .setSoundTimer x, r => r == x
  | .skipRegisterEqual x y, r | .skipRegisterNotEqual x y, r | .orRegister x y, r | .andRegister x y, r
  | .xorRegister x y, r | .addRegister x y, r | .subtractYFromX x y, r | .subtractXFromY x y, r
  | .display x y _, r => r == x || r == y
  | .setRegister _ y, r | .shiftRight _ y, r | .shiftLeft _ y, r => r == y
  | .jumpWithOffset _, r => r == 0
  | .store x, r => r ≤ x
  | .clearScreen, _ | .ret, _ | .jump _, _ | .callSubroutine _, _ | .setIndex _, _ | .set _ _, _ | .random _ _, _
  | .load _, _ | .setRegisterDelayTimer _, _ | .getKey _, _ => false

/-- The registers an operation writes when it executes (GetKey's Vx is written at the resume). -/
def writesReg : Instr → Reg → Bool
  | .set x _, r | .add x _, r | .random x _, r | .setRegister x _, r | .orRegister x _, r | .andRegister x _, r
  | .xorRegister x _, r | .setRegisterDelayTimer x, r => r == x
  | .addRegister x _, r | .subtractYFromX x _, r | .subtractXFromY x _, r | .shiftRight x _, r
  | .shiftLeft x _, r => r == x || r == 0xF
  | .display _ _ _, r => r == 0xF
  | .load x, r => r ≤ x
  | .clearScreen, _ | .ret, _ | .jump _, _ | .callSubroutine _, _ | .setIndex _, _ | .skipEqual _ _, _
  | .skipNotEqual _ _, _ | .skipRegisterEqual _ _, _ | .skipRegisterNotEqual _ _, _ | .jumpWithOffset _, _
  | .skipIfPressed _, _ | .skipIfNotPressed _, _ | .getKey _, _ | .setDelayTimer _, _ | .setSoundTimer _, _
  | .addToIndex _, _ | .fontCharacter _, _ | .decimalConversion _, _ | .store _, _ => false

/-! ## A sprite in closed form -/

/-- Pixel (r, c) is lit by the `n`-row sprite at I drawn at column `x0` and row `y0`: row `r` is one of its rows, `c` lies within
8 columns of `x0` around the row, and the byte's bit there is 1, bit 7 leftmost (R240 to R242). -/
def spriteLit (s : State) (x0 y0 n : Nat) (r : Fin 32) (c : Fin 64) : Bool :=
  decide (y0 ≤ r.val) && decide (r.val - y0 < n) && decide ((c.val + 64 - x0) % 64 < 8) &&
    (s.mem.read (s.i.toNat + (r.val - y0))).getLsbD (7 - (c.val + 64 - x0) % 64)

/-! ## Runs of the three agents -/

/-- The core has an enabled step: Running, or a key wait with a latched key (R36, R268, R269). -/
def State.coreEnabled (s : State) : Prop :=
  s.mode = .running ∨ ((∃ x, s.mode = .awaitingKey x) ∧ s.keyLatch ≠ none)

/-- An infinite run: `sched` says which agent moves, `trace` holds the states between the moves. -/
def IsRun (trace : Nat → State) (sched : Nat → AgentStep) : Prop :=
  ∀ n, agentStep (sched n) (trace n) = .next (trace (n + 1))

/-- The one assumption about time (R296): from any point on at which the run stays Running or AwaitingKey a tick comes, and from
any point on at which the core stays enabled a core step comes. -/
def Fair (trace : Nat → State) (sched : Nat → AgentStep) : Prop :=
  (∀ n, (∀ m, n ≤ m → (trace m).mode.live = true) → ∃ m, n ≤ m ∧ sched m = .tick) ∧
  (∀ n, (∀ m, n ≤ m → (trace m).coreEnabled) → ∃ m, n ≤ m ∧ sched m = .core)

end Sys2Proof.Machine
end

