-- ==== Sys2Proof/Certificates/Slice0/Obligations.lean ====
section
/-! DEFINITION. The statements for the provers, in the order of OBLIGATIONS.json. Each formalises rules of spec/, which its
docstring and its entry in OBLIGATIONS.json name. -/

open Sys2Proof Sys2Proof.Machine

/-! ## Encoding -/

/-- R104, R120: every well-formed instruction's word decodes to it, with every operand at every value its field admits. -/
def Obligations.DecodeOfEncodeIsTheInstruction : Prop :=
  ∀ i : Instr, i.wellFormed = true → decode (encode i) = .ok i

/-- R117: a word that decodes is the encoding of its instruction, bit for bit, but for the low nibble of groups 5 and 9,
the only bits a decodable word leaves unused. (That the encoder writes 0 in that nibble, as the second clause says, is the
model's choice, log 21.) -/
def Obligations.EncodeOfDecodeIsTheWordButForUnusedBits : Prop :=
  ∀ (w : Word) (i : Instr), decode w = .ok i →
    (w.toNat / 4096 ≠ 5 ∧ w.toNat / 4096 ≠ 9 → encode i = w) ∧
    (w.toNat / 4096 = 5 ∨ w.toNat / 4096 = 9 → (encode i).toNat = w.toNat - w.toNat % 16)

/-- R115's list of the illegal words: exactly these are rejected, by name. (R115's counts are not stated here.) -/
def Obligations.ExactlyTheListedWordsAreIllegal : Prop :=
  ∀ w : Word, (legalWord w = false → decode w = .error (.unrecognizedInstruction w)) ∧
    (legalWord w = true → ∃ i, decode w = .ok i)

/-- R120: the decoder gives a word the operation whose row of the opcode table the word matches, and only that one. -/
def Obligations.DecoderFollowsTheOpcodeTable : Prop :=
  ∀ (w : Word) (row : OpcodeRow), row ∈ opcodeTable →
    (w &&& row.mask = row.pattern ↔ ∃ i, decode w = .ok i ∧ i.mnemonic = row.mnemonic)

/-- R102, R105: every operand is a zero-extended field of the word: x = bits 8 to 11, y = bits 4 to 7, n = bits 0 to 3, nn
= bits 0 to 7, nnn = bits 0 to 11. -/
def Obligations.OperandsAreTheFieldsOfTheWord : Prop :=
  ∀ (w : Word) (i : Instr), decode w = .ok i →
    (i.operands = [] ∨ i.operands = [(12, w.toNat % 4096)] ∨ i.operands = [(4, w.toNat / 256 % 16)] ∨
      i.operands = [(4, w.toNat / 256 % 16), (8, w.toNat % 256)] ∨
      i.operands = [(4, w.toNat / 256 % 16), (4, w.toNat / 16 % 16)] ∨
      i.operands = [(4, w.toNat / 256 % 16), (4, w.toNat / 16 % 16), (4, w.toNat % 16)])

/-- R108, R109: every word of group 5 is SkipRegisterEqual and every word of group 9 is SkipRegisterNotEqual, whatever the
low nibble. -/
def Obligations.LowNibbleOfGroups5And9IsIgnored : Prop :=
  ∀ w : Word,
    (w.toNat / 4096 = 5 →
      decode w = .ok (.skipRegisterEqual (Fin.ofNat 16 (w.toNat / 256)) (Fin.ofNat 16 (w.toNat / 16)))) ∧
    (w.toNat / 4096 = 9 →
      decode w = .ok (.skipRegisterNotEqual (Fin.ofNat 16 (w.toNat / 256)) (Fin.ofNat 16 (w.toNat / 16))))

/-- Words written out from the spec's encodings, one or more of each family, and illegal words (95_test_vectors.md). -/
def Obligations.WordsFromTheSpecDecode : Prop :=
  decode 0x00E0 = .ok .clearScreen ∧ decode 0x00EE = .ok .ret ∧ decode 0x2300 = .ok (.callSubroutine 0x300) ∧
  decode 0x3A2A = .ok (.skipEqual 0xA 0x2A) ∧ decode 0xE1A1 = .ok (.skipIfNotPressed 1) ∧
  decode 0x632A = .ok (.set 3 0x2A) ∧ decode 0x8123 = .ok (.xorRegister 1 2) ∧
  decode 0x8125 = .ok (.subtractYFromX 1 2) ∧ decode 0x8127 = .ok (.subtractXFromY 1 2) ∧
  decode 0x812E = .ok (.shiftLeft 1 2) ∧ decode 0xA123 = .ok (.setIndex 0x123) ∧
  decode 0xF533 = .ok (.decimalConversion 5) ∧ decode 0xD125 = .ok (.display 1 2 5) ∧
  decode 0xC30F = .ok (.random 3 0x0F) ∧ decode 0xF20A = .ok (.getKey 2) ∧
  decode 0x0123 = .error (.unrecognizedInstruction 0x0123) ∧
  decode 0x8128 = .error (.unrecognizedInstruction 0x8128)

/-! ## Fetch, the step, faults -/

/-- The machine's step is the atomic step of one agent: the first of the agenda, and with nothing queued the core. (That
the schedule is a list in State is the model's choice, log 1.) -/
def Obligations.StepIsTheTurnOfOneAgent : Prop :=
  ∀ s : State, (s.agenda = [] → step s = agentStep .core s) ∧
    ∀ e rest, s.agenda = e :: rest → step s = agentStep e { s with agenda := rest }

/-- R101, R36: in Running, on the core's turn, when the two bytes at PC (high byte first) decode to `i`, the step is `exec
i` at the state whose queued core turn is used up. (The agenda is the model's own, log 1.) -/
def Obligations.StepRunsTheDecodedInstruction : Prop :=
  ∀ (s : State) (i : Instr), s.mode = .running → s.agenda.headD .core = .core → s.pc.toNat + 1 ≤ 0xFFF →
    decode (s.mem.read s.pc.toNat ++ s.mem.read (s.pc.toNat + 1)) = .ok i →
    step s = exec i { s with agenda := s.agenda.tail }

/-- R75: a fetch whose second byte lies outside memory faults with that address, and the record has no word (R281). -/
def Obligations.FetchPastMemoryFaults : Prop :=
  ∀ s : State, s.mode = .running → 0xFFF < s.pc.toNat + 1 →
    agentStep .core s = .next { s with
      mode := .halted .memoryOutOfBounds
      faultRecord := some { kind := .memoryOutOfBounds, pc := s.pc, word := none,
                            value := some (BitVec.ofNat 16 (s.pc.toNat + 1)) }
      keyLatch := none }

/-- R115, R118, R281, R283, R284: an illegal word always halts the machine; the record carries the word twice, and nothing
else changes. -/
def Obligations.IllegalWordHalts : Prop :=
  ∀ (s : State) (e : DecodeError), s.mode = .running → s.pc.toNat + 1 ≤ 0xFFF →
    decode (s.mem.read s.pc.toNat ++ s.mem.read (s.pc.toNat + 1)) = .error e →
    agentStep .core s = .next { s with
      mode := .halted .unrecognizedInstruction
      faultRecord := some { kind := .unrecognizedInstruction, pc := s.pc,
                            word := some (s.mem.read s.pc.toNat ++ s.mem.read (s.pc.toNat + 1)),
                            value := some (s.mem.read s.pc.toNat ++ s.mem.read (s.pc.toNat + 1)) }
      keyLatch := none }

/-- R282, R283: whichever core step faults, in whichever way, the entry into Halted, the record and the cleared latch are
all it writes. -/
def Obligations.FaultCommitsNothingElse : Prop :=
  ∀ (s t : State) (k : FaultKind), s.mode.live = true → agentStep .core s = .next t → t.mode = .halted k →
    ∃ value, t = { s with
      mode := .halted k
      faultRecord := some { kind := k, pc := s.pc, word := s.fetch, value := value }
      keyLatch := none }

/-- R280: which operation can raise which kind, and when. No operation raises UnrecognizedInstruction or RomTooLarge, and
Jump, CallSubroutine and GetKey raise no MemoryOutOfBounds (R141, R142, R263). -/
def Obligations.OperationsRaiseOnlyTheirKinds : Prop :=
  ∀ (i : Instr) (s t : State) (k : FaultKind), s.mode = .running → exec i s = .next t → t.mode = .halted k →
    (k = .memoryOutOfBounds ∧ ∀ nnn x, i ≠ .jump nnn ∧ i ≠ .callSubroutine nnn ∧ i ≠ .getKey x) ∨
    (k = .stackOverflow ∧ (∃ nnn, i = .callSubroutine nnn) ∧ s.sp.val = 16) ∨
    (k = .stackUnderflow ∧ i = .ret ∧ s.sp.val = 0) ∨
    (k = .invalidKeyIndex ∧ ∃ x, (i = .skipIfPressed x ∨ i = .skipIfNotPressed x) ∧ 0x0F < s.v[x].toNat)

/-- R292 and R119: every operation executes in every state; `exec` never stops the machine by itself. -/
def Obligations.EveryOperationAnswersANextState : Prop :=
  ∀ (i : Instr) (s : State), ∃ t, exec i s = .next t

/-! ## Control flow -/

/-- R140: ClearScreen (00E0) turns every pixel off, also when it is off already, asks for a redraw and changes nothing
else. -/
def Obligations.ClearScreenTurnsEveryPixelOff : Prop :=
  decode 0x00E0 = .ok .clearScreen ∧ ∀ s : State,
    (s.pc.toNat + 2 ≤ 0xFFF → ∃ t, exec .clearScreen s = .next t ∧
      (∀ (r : Fin 32) (c : Fin 64), t.disp[r][c] = false) ∧
      (∀ a, t.mem.read a = s.mem.read a) ∧
      t = { s with disp := t.disp, needsRedraw := true, pc := BitVec.ofNat 16 (s.pc.toNat + 2) }) ∧
    (0xFFF < s.pc.toNat + 2 → exec .clearScreen s = .next (s.outOfBounds (s.pc.toNat + 2)))

/-- R141: Jump (1nnn) sets PC to nnn, and faults in no state. -/
def Obligations.JumpSetsPc : Prop :=
  ∀ (nnn : Addr12) (s : State), decode (wordFA 0x1 nnn) = .ok (.jump nnn) ∧
    ∃ t, exec (.jump nnn) s = .next t ∧ t.pc.toNat = nnn.toNat ∧ t = { s with pc := t.pc }

/-- R142: CallSubroutine (2nnn) pushes pc + 2 and sets PC to nnn, or raises StackOverflow with nothing pushed when SP =
16. -/
def Obligations.CallPushesTheReturnAddress : Prop :=
  ∀ (nnn : Addr12) (s : State), decode (wordFA 0x2 nnn) = .ok (.callSubroutine nnn) ∧
    (∀ h : s.sp.val < 16, ∃ t, exec (.callSubroutine nnn) s = .next t ∧ t.pc.toNat = nnn.toNat ∧
      t.sp.val = s.sp.val + 1 ∧ t.stack = s.stack.set s.sp.val (BitVec.ofNat 16 (s.pc.toNat + 2)) ∧
      (∀ a, t.mem.read a = s.mem.read a) ∧
      t = { s with pc := t.pc, sp := t.sp, stack := t.stack }) ∧
    (s.sp.val = 16 → exec (.callSubroutine nnn) s = .next (s.takeFault .stackOverflow none))

/-- R143: Return (00EE) sets PC to the top entry with nothing added; it raises StackUnderflow on an empty stack and
MemoryOutOfBounds when the entry is above 0xFFF, with SP unchanged in both. -/
def Obligations.ReturnPopsIntoPc : Prop :=
  decode 0x00EE = .ok .ret ∧ ∀ s : State,
    (s.sp.val = 0 → exec .ret s = .next (s.takeFault .stackUnderflow none)) ∧
    (∀ top : Fin 16, top.val + 1 = s.sp.val →
      (s.stack[top].toNat ≤ 0xFFF → ∃ t, exec .ret s = .next t ∧ t.pc = s.stack[top] ∧ t.sp.val = top.val ∧
        (∀ a, t.mem.read a = s.mem.read a) ∧ t = { s with pc := t.pc, sp := t.sp }) ∧
      (0xFFF < s.stack[top].toNat → exec .ret s = .next (s.outOfBounds s.stack[top].toNat)))

/-- R142, R143: a call and then the return resume at the instruction after the call, with the depth as before. -/
def Obligations.CallThenReturnResumesAfterTheCall : Prop :=
  ∀ (nnn : Addr12) (s : State), s.sp.val < 16 → s.pc.toNat + 2 ≤ 0xFFF →
    ∃ t u, exec (.callSubroutine nnn) s = .next t ∧ exec .ret t = .next u ∧ u.pc.toNat = s.pc.toNat + 2 ∧
      u = { s with pc := u.pc, stack := u.stack } ∧ ∀ k : Fin 16, k.val < s.sp.val → u.stack[k] = s.stack[k]

/-- R144: JumpWithOffset (Bnnn) sets PC to nnn + V0, and faults instead of wrapping. -/
def Obligations.JumpWithOffsetAddsV0 : Prop :=
  ∀ (nnn : Addr12) (s : State), decode (wordFA 0xB nnn) = .ok (.jumpWithOffset nnn) ∧
    (nnn.toNat + s.v[(0 : Reg)].toNat ≤ 0xFFF → ∃ t, exec (.jumpWithOffset nnn) s = .next t ∧
      t.pc.toNat = nnn.toNat + s.v[(0 : Reg)].toNat ∧ t = { s with pc := t.pc }) ∧
    (0xFFF < nnn.toNat + s.v[(0 : Reg)].toNat →
      exec (.jumpWithOffset nnn) s = .next (s.outOfBounds (nnn.toNat + s.v[(0 : Reg)].toNat)))

/-! ## Skips -/

/-- R160 to R163: the four comparing skips, 3xnn, 4xnn, 5xy? and 9xy?, the last two whatever the low nibble `n`. -/
def Obligations.ComparingSkipsCompare : Prop :=
  ∀ (x y : Reg) (nn : Byte) (n : BitVec 4) (s : State),
    decode (wordFXB 0x3 x nn) = .ok (.skipEqual x nn) ∧ decode (wordFXB 0x4 x nn) = .ok (.skipNotEqual x nn) ∧
    decode (wordFXYN 0x5 x y n) = .ok (.skipRegisterEqual x y) ∧
    decode (wordFXYN 0x9 x y n) = .ok (.skipRegisterNotEqual x y) ∧
    Skips (.skipEqual x nn) s (s.v[x] = nn) ∧ Skips (.skipNotEqual x nn) s (s.v[x] ≠ nn) ∧
    Skips (.skipRegisterEqual x y) s (s.v[x] = s.v[y]) ∧ Skips (.skipRegisterNotEqual x y) s (s.v[x] ≠ s.v[y])

/-- R164, R165: the key skips, Ex9E and ExA1; an index above 0x0F raises InvalidKeyIndex before the next-PC check and is
not masked. -/
def Obligations.KeySkipsReadTheKeypad : Prop :=
  ∀ (x : Reg) (s : State),
    decode (wordFXB 0xE x 0x9E) = .ok (.skipIfPressed x) ∧ decode (wordFXB 0xE x 0xA1) = .ok (.skipIfNotPressed x) ∧
    (∀ k : Key, s.v[x].toNat = k.val →
      Skips (.skipIfPressed x) s (s.key[k] = true) ∧ Skips (.skipIfNotPressed x) s (s.key[k] = false)) ∧
    (0x0F < s.v[x].toNat →
      exec (.skipIfPressed x) s = .next (s.takeFault .invalidKeyIndex (some (BitVec.ofNat 16 s.v[x].toNat))) ∧
      exec (.skipIfNotPressed x) s = .next (s.takeFault .invalidKeyIndex (some (BitVec.ofNat 16 s.v[x].toNat))))

/-! ## Register operations -/

/-- R180 to R185: the six operations that write Vx only (6xnn, 7xnn, 8xy0 to 8xy3); VF changes only as the destination. -/
def Obligations.RegisterOperationsWriteVxOnly : Prop :=
  ∀ (x y : Reg) (nn : Byte) (s : State),
    decode (wordFXB 0x6 x nn) = .ok (.set x nn) ∧ decode (wordFXB 0x7 x nn) = .ok (.add x nn) ∧
    decode (wordFXYN 0x8 x y 0x0) = .ok (.setRegister x y) ∧ decode (wordFXYN 0x8 x y 0x1) = .ok (.orRegister x y) ∧
    decode (wordFXYN 0x8 x y 0x2) = .ok (.andRegister x y) ∧ decode (wordFXYN 0x8 x y 0x3) = .ok (.xorRegister x y) ∧
    Sequential (.set x nn) s { s with v := s.v.set x nn } ∧
    Sequential (.add x nn) s { s with v := s.v.set x (BitVec.ofNat 8 ((s.v[x].toNat + nn.toNat) % 256)) } ∧
    Sequential (.setRegister x y) s { s with v := s.v.set x s.v[y] } ∧
    Sequential (.orRegister x y) s { s with v := s.v.set x (s.v[x] ||| s.v[y]) } ∧
    Sequential (.andRegister x y) s { s with v := s.v.set x (s.v[x] &&& s.v[y]) } ∧
    Sequential (.xorRegister x y) s { s with v := s.v.set x (s.v[x] ^^^ s.v[y]) }

/-! ## Arithmetic with flags -/

/-- R201 to R203 (8xy4, 8xy5, 8xy7): sum and differences modulo 256, carry and no-borrow in VF, written last. -/
def Obligations.AddAndSubtractSetCarryAndNoBorrow : Prop :=
  ∀ (x y : Reg) (s : State),
    decode (wordFXYN 0x8 x y 0x4) = .ok (.addRegister x y) ∧
    decode (wordFXYN 0x8 x y 0x5) = .ok (.subtractYFromX x y) ∧
    decode (wordFXYN 0x8 x y 0x7) = .ok (.subtractXFromY x y) ∧
    FlagOperation (.addRegister x y) s x ((s.v[x].toNat + s.v[y].toNat) % 256)
      (255 < s.v[x].toNat + s.v[y].toNat) ∧
    FlagOperation (.subtractYFromX x y) s x ((s.v[x].toNat + 256 - s.v[y].toNat) % 256)
      (s.v[y].toNat ≤ s.v[x].toNat) ∧
    FlagOperation (.subtractXFromY x y) s x ((s.v[y].toNat + 256 - s.v[x].toNat) % 256)
      (s.v[x].toNat ≤ s.v[y].toNat)

/-- R204, R205 (8xy6, 8xyE): the shifts take Vy, and VF takes the bit shifted out. -/
def Obligations.ShiftsTakeVyAndSetTheBitShiftedOut : Prop :=
  ∀ (x y : Reg) (s : State),
    decode (wordFXYN 0x8 x y 0x6) = .ok (.shiftRight x y) ∧ decode (wordFXYN 0x8 x y 0xE) = .ok (.shiftLeft x y) ∧
    FlagOperation (.shiftRight x y) s x (s.v[y].toNat / 2) (s.v[y].toNat % 2 = 1) ∧
    FlagOperation (.shiftLeft x y) s x (s.v[y].toNat * 2 % 256) (128 ≤ s.v[y].toNat)

/-! ## Index and memory -/

/-- R220, R222 (Annn, Fx29): I takes nnn; I takes FONT_BASE + 5 * (Vx AND 0x0F), whatever FONT_BASE is. -/
def Obligations.SetIndexAndFontCharacterWriteI : Prop :=
  ∀ (x : Reg) (nnn : Addr12) (s : State),
    decode (wordFA 0xA nnn) = .ok (.setIndex nnn) ∧ decode (wordFXB 0xF x 0x29) = .ok (.fontCharacter x) ∧
    Sequential (.setIndex nnn) s { s with i := BitVec.ofNat 16 nnn.toNat } ∧
    Sequential (.fontCharacter x) s { s with i := BitVec.ofNat 16 (Config.fontBase.val + 5 * (s.v[x].toNat % 16)) }

/-- R221: AddToIndex (Fx1E) adds Vx to I, or faults before the next-PC check when the sum leaves memory; no flag. -/
def Obligations.AddToIndexAddsOrFaults : Prop :=
  ∀ (x : Reg) (s : State), decode (wordFXB 0xF x 0x1E) = .ok (.addToIndex x) ∧
    (s.i.toNat + s.v[x].toNat ≤ 0xFFF →
      Sequential (.addToIndex x) s { s with i := BitVec.ofNat 16 (s.i.toNat + s.v[x].toNat) }) ∧
    (0xFFF < s.i.toNat + s.v[x].toNat →
      exec (.addToIndex x) s = .next (s.outOfBounds (s.i.toNat + s.v[x].toNat)))

/-- R223: DecimalConversion (Fx33) writes the three digits at I, I + 1, I + 2 and no other byte, or faults with no byte
written. -/
def Obligations.DecimalConversionWritesThreeDigits : Prop :=
  ∀ (x : Reg) (s : State), decode (wordFXB 0xF x 0x33) = .ok (.decimalConversion x) ∧
    (s.i.toNat + 2 ≤ 0xFFF → s.pc.toNat + 2 ≤ 0xFFF → ∃ t, exec (.decimalConversion x) s = .next t ∧
      (t.mem.read s.i.toNat).toNat = s.v[x].toNat / 100 ∧
      (t.mem.read (s.i.toNat + 1)).toNat = s.v[x].toNat / 10 % 10 ∧
      (t.mem.read (s.i.toNat + 2)).toNat = s.v[x].toNat % 10 ∧
      (∀ a, a < s.i.toNat ∨ s.i.toNat + 2 < a → t.mem.read a = s.mem.read a) ∧
      t = { s with mem := t.mem, pc := BitVec.ofNat 16 (s.pc.toNat + 2) }) ∧
    (s.i.toNat + 2 ≤ 0xFFF → 0xFFF < s.pc.toNat + 2 →
      exec (.decimalConversion x) s = .next (s.outOfBounds (s.pc.toNat + 2))) ∧
    (0xFFF < s.i.toNat + 2 → exec (.decimalConversion x) s = .next (s.outOfBounds (s.i.toNat + 2)))

/-- R224: Store (Fx55) writes V0 to Vx at I upward and no other byte, leaves I unchanged, or faults with no byte written.
-/
def Obligations.StoreWritesV0ToVx : Prop :=
  ∀ (x : Reg) (s : State), decode (wordFXB 0xF x 0x55) = .ok (.store x) ∧
    (s.i.toNat + x.val ≤ 0xFFF → s.pc.toNat + 2 ≤ 0xFFF → ∃ t, exec (.store x) s = .next t ∧
      (∀ r : Reg, r ≤ x → t.mem.read (s.i.toNat + r.val) = s.v[r]) ∧
      (∀ a, a < s.i.toNat ∨ s.i.toNat + x.val < a → t.mem.read a = s.mem.read a) ∧
      t = { s with mem := t.mem, pc := BitVec.ofNat 16 (s.pc.toNat + 2) }) ∧
    (s.i.toNat + x.val ≤ 0xFFF → 0xFFF < s.pc.toNat + 2 →
      exec (.store x) s = .next (s.outOfBounds (s.pc.toNat + 2))) ∧
    (0xFFF < s.i.toNat + x.val → exec (.store x) s = .next (s.outOfBounds (s.i.toNat + x.val)))

/-- R225: Load (Fx65) reads memory at I upward into V0 to Vx, leaves every other register and I unchanged, or faults with
no register written. -/
def Obligations.LoadReadsIntoV0ToVx : Prop :=
  ∀ (x : Reg) (s : State), decode (wordFXB 0xF x 0x65) = .ok (.load x) ∧
    (s.i.toNat + x.val ≤ 0xFFF → s.pc.toNat + 2 ≤ 0xFFF → ∃ t, exec (.load x) s = .next t ∧
      (∀ r : Reg, r ≤ x → t.v[r] = s.mem.read (s.i.toNat + r.val)) ∧
      (∀ r : Reg, x < r → t.v[r] = s.v[r]) ∧
      (∀ a, t.mem.read a = s.mem.read a) ∧
      t = { s with v := t.v, pc := BitVec.ofNat 16 (s.pc.toNat + 2) }) ∧
    (s.i.toNat + x.val ≤ 0xFFF → 0xFFF < s.pc.toNat + 2 →
      exec (.load x) s = .next (s.outOfBounds (s.pc.toNat + 2))) ∧
    (0xFFF < s.i.toNat + x.val → exec (.load x) s = .next (s.outOfBounds (s.i.toNat + x.val)))

/-- R72, R73: a write sets its cell and has no other effect that a read can see. -/
def Obligations.MemoryWriteSetsItsCellOnly : Prop :=
  ∀ (m : Memory) (a b : Nat) (v : Byte),
    (m.write a v).read a = v ∧ (b ≠ a → (m.write a v).read b = m.read b)

/-- R86, R329: the instruction after a Store is fetched from the bytes the Store left, with no delay. -/
def Obligations.FetchSeesTheStoreBeforeIt : Prop :=
  ∀ (x : Reg) (s t : State) (r : Reg), s.mode = .running → exec (.store x) s = .next t → t.mode = .running →
    t.pc.toNat = s.i.toNat + r.val → r.val + 1 ≤ x.val →
    t.fetch = some (s.v[r] ++ s.v[r + 1])

/-! ## Display -/

/-- R240 to R243: Display (Dxyn) XORs the sprite onto the buffer, pixel by pixel, wrapping columns and clipping rows; VF
says whether a pixel was turned off; nothing else changes. It faults when a sprite byte, one of a clipped row included,
lies outside memory, checked before the next PC. -/
def Obligations.DisplayXorsTheSprite : Prop :=
  ∀ (x y : Reg) (n : Height) (s : State), decode (wordFXYN 0xD x y (regBits n)) = .ok (.display x y n) ∧
    ((n.val = 0 ∨ s.i.toNat + n.val - 1 ≤ 0xFFF) → s.pc.toNat + 2 ≤ 0xFFF → ∃ t, exec (.display x y n) s = .next t ∧
      (∀ (r : Fin 32) (c : Fin 64), t.disp[r][c] =
        (s.disp[r][c] ^^ spriteLit s (s.v[x].toNat % 64) (s.v[y].toNat % 32) n.val r c)) ∧
      ((∃ (r : Fin 32) (c : Fin 64), s.disp[r][c] = true ∧
        spriteLit s (s.v[x].toNat % 64) (s.v[y].toNat % 32) n.val r c = true) → t.v[(0xF : Reg)] = 1) ∧
      ((∀ (r : Fin 32) (c : Fin 64), s.disp[r][c] = true →
        spriteLit s (s.v[x].toNat % 64) (s.v[y].toNat % 32) n.val r c = false) → t.v[(0xF : Reg)] = 0) ∧
      (∀ r : Reg, r ≠ 0xF → t.v[r] = s.v[r]) ∧
      (∀ a, t.mem.read a = s.mem.read a) ∧
      t = { s with v := t.v, disp := t.disp, needsRedraw := true, pc := BitVec.ofNat 16 (s.pc.toNat + 2) }) ∧
    ((n.val = 0 ∨ s.i.toNat + n.val - 1 ≤ 0xFFF) → 0xFFF < s.pc.toNat + 2 →
      exec (.display x y n) s = .next (s.outOfBounds (s.pc.toNat + 2))) ∧
    (n.val ≠ 0 → 0xFFF < s.i.toNat + n.val - 1 →
      exec (.display x y n) s = .next (s.outOfBounds (s.i.toNat + n.val - 1)))

/-- R240, R244: the same sprite drawn twice at the same position restores the buffer, and the second draw reports a
collision exactly when the sprite lights a pixel that was off before the first draw. (R244 says: exactly when the sprite
lights a pixel; by R240 that is so where the sprite's pixels were off, the case of the source. Log 25.) -/
def Obligations.DrawingTwiceRestoresTheDisplay : Prop :=
  ∀ (x y x' y' : Reg) (n : Height) (s u : State),
    (n.val = 0 ∨ s.i.toNat + n.val - 1 ≤ 0xFFF) → s.pc.toNat + 2 ≤ 0xFFF → u.pc.toNat + 2 ≤ 0xFFF →
    u.v[x'].toNat % 64 = s.v[x].toNat % 64 → u.v[y'].toNat % 32 = s.v[y].toNat % 32 → u.i = s.i →
    (∀ a, u.mem.read a = s.mem.read a) →
    (∀ t, exec (.display x y n) s = .next t → u.disp = t.disp) →
    ∃ t', exec (.display x' y' n) u = .next t' ∧ t'.disp = s.disp ∧
      ((∃ (r : Fin 32) (c : Fin 64), s.disp[r][c] = false ∧
        spriteLit s (s.v[x].toNat % 64) (s.v[y].toNat % 32) n.val r c = true) → t'.v[(0xF : Reg)] = 1) ∧
      ((∀ (r : Fin 32) (c : Fin 64), s.disp[r][c] = false →
        spriteLit s (s.v[x].toNat % 64) (s.v[y].toNat % 32) n.val r c = false) → t'.v[(0xF : Reg)] = 0)

/-! ## Timers, input, random -/

/-- R260 to R262: the three operations on the timers (Fx07, Fx15, Fx18). -/
def Obligations.TimerOperationsCopy : Prop :=
  ∀ (x : Reg) (s : State),
    decode (wordFXB 0xF x 0x07) = .ok (.setRegisterDelayTimer x) ∧
    decode (wordFXB 0xF x 0x15) = .ok (.setDelayTimer x) ∧ decode (wordFXB 0xF x 0x18) = .ok (.setSoundTimer x) ∧
    Sequential (.setRegisterDelayTimer x) s { s with v := s.v.set x s.dt } ∧
    Sequential (.setDelayTimer x) s { s with dt := s.v[x] } ∧
    Sequential (.setSoundTimer x) s { s with st := s.v[x] }

/-- R263: GetKey (Fx0A) suspends the core with PC at the GetKey and an empty latch, and writes nothing else. -/
def Obligations.GetKeySuspends : Prop :=
  ∀ (x : Reg) (s : State), decode (wordFXB 0xF x 0x0A) = .ok (.getKey x) ∧
    exec (.getKey x) s = .next { s with mode := .awaitingKey x, keyLatch := none }

/-- R268: the resume step writes the latched key to Vx and moves on; when the next PC leaves memory it faults and Vx is
unchanged. -/
def Obligations.ResumeWritesTheLatchedKey : Prop :=
  ∀ (x : Reg) (k : Key) (s : State), s.mode = .awaitingKey x → s.keyLatch = some k →
    (s.pc.toNat + 2 ≤ 0xFFF → agentStep .core s = .next { s with
      v := s.v.set x (BitVec.ofNat 8 k.val), keyLatch := none, mode := .running
      pc := BitVec.ofNat 16 (s.pc.toNat + 2) }) ∧
    (0xFFF < s.pc.toNat + 2 → agentStep .core s = .next (s.outOfBounds (s.pc.toNat + 2)))

/-- R267, R269: with no key latched the core holds; its turn changes nothing. (That the hold is a step which answers the
same state is the model's choice, log 6.) -/
def Obligations.WaitWithoutAKeyHolds : Prop :=
  ∀ (x : Reg) (s : State), s.mode = .awaitingKey x → s.keyLatch = none → agentStep .core s = .next s

/-- R264, R270: Random (Cxnn) writes the drawn byte ANDed with nn to Vx, whatever byte is drawn. (`draws` is the model's
index of the free bytes, log 2.) -/
def Obligations.RandomMasksTheDrawnByte : Prop :=
  ∀ (x : Reg) (nn : Byte) (s : State), decode (wordFXB 0xC x nn) = .ok (.random x nn) ∧
    Sequential (.random x nn) s
      { s with v := s.v.set x (Config.randomByte s.draws &&& nn), draws := s.draws + 1 }

/-- R266: no instruction reads ST. Changing ST changes what an instruction does in nothing but ST itself, and where
SetSoundTimer completes it overwrites the change. -/
def Obligations.NoInstructionReadsTheSoundTimer : Prop :=
  ∀ (i : Instr) (s : State) (b : Byte),
    exec i { s with st := b } = mapNext (fun t => { t with st := b }) (exec i s) ∨
    ((∃ x, i = .setSoundTimer x) ∧ exec i { s with st := b } = exec i s)

/-! ## Whole-machine rules -/

/-- R33, the column of writes, with R53: a register changes only when the operation is listed as writing it. -/
def Obligations.OnlyListedRegistersAreWritten : Prop :=
  ∀ (i : Instr) (s t : State) (r : Reg), exec i s = .next t → writesReg i r = false → t.v[r] = s.v[r]

/-- R33, the column of reads: a register an operation is not listed as reading has no influence. Changing it before the
operation changes nothing in the result but that register, or nothing at all where the operation overwrites it. -/
def Obligations.OnlyListedRegistersAreRead : Prop :=
  ∀ (i : Instr) (s : State) (r : Reg) (b : Byte), readsReg i r = false →
    exec i { s with v := s.v.set r b } = mapNext (fun t => { t with v := t.v.set r b }) (exec i s) ∨
    (writesReg i r = true ∧ exec i { s with v := s.v.set r b } = exec i s)

/-- R37, R41 to R45, R47, R49, R81, R263 and R292 read together: which instructions can change the keypad, I, the stack,
memory, the timers, the display and needs_redraw, and which enters a key wait. (V0 to VF are
`OnlyListedRegistersAreWritten`'s; PC, the mode, the record and the latch are `ModeRecordLatchAndPcHaveTheirWriters`'s;
`agenda` and `draws` are the model's own, logs 1 and 2.) -/
def Obligations.EachPieceOfStateHasItsWriters : Prop :=
  ∀ (i : Instr) (s t : State), exec i s = .next t →
    t.key = s.key ∧ t.agenda = s.agenda ∧
    (t.i ≠ s.i → ∃ nnn x, i = .setIndex nnn ∨ i = .addToIndex x ∨ i = .fontCharacter x) ∧
    (t.stack ≠ s.stack → ∃ nnn, i = .callSubroutine nnn) ∧
    (t.sp ≠ s.sp → ∃ nnn, i = .callSubroutine nnn ∨ i = .ret) ∧
    (∀ a, t.mem.read a ≠ s.mem.read a → ∃ x, i = .decimalConversion x ∨ i = .store x) ∧
    (t.dt ≠ s.dt → ∃ x, i = .setDelayTimer x) ∧ (t.st ≠ s.st → ∃ x, i = .setSoundTimer x) ∧
    (t.disp ≠ s.disp ∨ t.needsRedraw ≠ s.needsRedraw → i = .clearScreen ∨ ∃ x y n, i = .display x y n) ∧
    (∀ x, t.mode = .awaitingKey x → t.mode ≠ s.mode → i = .getKey x) ∧
    (t.draws ≠ s.draws → ∃ x nn, i = .random x nn)

/-- R81: memory changes only when the core runs a DecimalConversion or a Store, or by a load. -/
def Obligations.MemoryChangesOnlyByStoresAndLoads : Prop :=
  ∀ (s t : State) (a : Nat), step s = .next t → t.mem.read a ≠ s.mem.read a →
    (∃ rom rest, s.agenda = .load rom :: rest) ∨
    (s.mode = .running ∧ s.agenda.headD .core = .core ∧
      ∃ w i x, s.fetch = some w ∧ decode w = .ok i ∧ (i = .decimalConversion x ∨ i = .store x))

/-- R34, R36, R41, R47, R48, R50, R71, R143: the invariant of `State.Inv` is kept by every step of every agent. -/
def Obligations.EveryStepKeepsTheInvariant : Prop :=
  ∀ s t : State, s.Inv → step s = .next t → t.Inv

/-- The state after reset meets the invariant. -/
def Obligations.ResetMeetsTheInvariant : Prop := State.reset.Inv

/-! ## Timer and host -/

/-- R295, R42: a tick takes one from each Counting timer, leaves an Idle timer at 0 and changes nothing else. -/
def Obligations.TickCountsBothTimersDown : Prop :=
  ∀ s : State, s.mode.live = true →
    ∃ t, agentStep .tick s = .next t ∧ t.dt.toNat = s.dt.toNat - 1 ∧ t.st.toNat = s.st.toNat - 1 ∧
      t = { s with dt := t.dt, st := t.st }

/-- R42, R295: after n ticks a timer that held d holds d - n, and it never goes below 0 (the source's property S13). -/
def Obligations.TicksDrainATimerToZero : Prop :=
  ∀ (n : Nat) (s : State), s.mode.live = true →
    (State.tick^[n] s).dt.toNat = s.dt.toNat - n ∧ (State.tick^[n] s).st.toNat = s.st.toNat - n

/-- R269, R296: timers keep counting during a key wait. In a fair run in which the wait is never answered, both timers are
Idle from some point on. -/
def Obligations.TimersRunOutDuringAnUnansweredWait : Prop :=
  ∀ (trace : Nat → State) (sched : Nat → AgentStep), IsRun trace sched → Fair trace sched →
    (∀ n, ∃ x, (trace n).mode = .awaitingKey x) →
    ∃ n, ∀ m, n ≤ m → (trace m).dt = 0 ∧ (trace m).st = 0

/-- R300, R267: in Running and AwaitingKey KeyDown of a released key presses it and, in a wait with no key latched, latches
it; KeyDown of a pressed key changes nothing; KeyUp releases the key and nothing else. In a terminal mode neither changes
anything. (That they are not taken there is I16's treatment of R288, which the model follows: log 9.) -/
def Obligations.KeyEventsPressReleaseAndLatch : Prop :=
  ∀ (s : State) (k : Key),
    (s.key[k] = true → agentStep (.keyDown k) s = .next s) ∧
    (s.key[k] = false → (∃ x, s.mode = .awaitingKey x) → s.keyLatch = none →
      agentStep (.keyDown k) s = .next { s with key := s.key.set k true, keyLatch := some k }) ∧
    (s.mode.live = true → s.key[k] = false → ((∀ x, s.mode ≠ .awaitingKey x) ∨ s.keyLatch ≠ none) →
      agentStep (.keyDown k) s = .next { s with key := s.key.set k true }) ∧
    (s.mode.live = true → agentStep (.keyUp k) s = .next { s with key := s.key.set k false }) ∧
    (s.mode.live = false → agentStep (.keyDown k) s = .next s ∧ agentStep (.keyUp k) s = .next s)

/-- R301: in Running and AwaitingKey a host update of the whole keypad, as single-key steps in any order of the keys, leaves
the keypad at the target and takes no other effect than the latch; in a wait with no key latched, the latch is the first key
of the order that became pressed. In a terminal mode it changes nothing (I16's treatment of R288: log 9). -/
def Obligations.KeypadUpdateInAnyOrderReachesTheTarget : Prop :=
  ∀ (order : List Key) (target : Vector Bool 16) (s : State), order.Nodup → (∀ k : Key, k ∈ order) →
    ∃ t, Sys2Proof.core.run (keyUpdate order target s).length { s with agenda := keyUpdate order target s } = .next t ∧
      (s.mode.live = true → t.key = target) ∧
      t = { s with key := t.key, keyLatch := t.keyLatch, agenda := [] } ∧
      ((∃ x, s.mode = .awaitingKey x) → s.keyLatch = none →
        t.keyLatch = order.find? (fun k => target[k] && !s.key[k])) ∧
      (s.mode.live = false → t = { s with agenda := [] })

/-- R303, R304, R288: in Running and AwaitingKey AckRedraw clears needs_redraw only, and Stop ends the run; in a terminal mode
neither changes anything. (That AckRedraw is not taken in Halted and Stopped is I16's treatment of R288, which the model
follows where R303 names no mode: log 9.) -/
def Obligations.AcknowledgeAndStop : Prop :=
  ∀ s : State,
    (s.mode.live = true → agentStep .ackRedraw s = .next { s with needsRedraw := false }) ∧
    (s.mode.live = false → agentStep .ackRedraw s = .next s) ∧
    (s.mode.live = true → agentStep .stop s = .next { s with mode := .stopped, keyLatch := none }) ∧
    (s.mode.live = false → agentStep .stop s = .next s)

/-- R287, R288, R324, R327: in Halted and Stopped the core has no step: its turn ends the run, with the kind surfaced when
Halted. No step but a load changes anything, so only a load leaves the mode. (Which outcome ends the run, and that a step
which is not enabled there is used up without effect, are the model's choices, logs 7 and 8; that key events are not taken
there either is I16's treatment of R288, which the model follows, log 9.) -/
def Obligations.TerminalModesAreLeftByLoadOnly : Prop :=
  ∀ s : State,
    (∀ k, s.mode = .halted k → agentStep .core s = .fault (.halted k)) ∧
    (s.mode = .stopped → agentStep .core s = .refused .stopped) ∧
    (s.mode.live = false → ∀ e t, (∀ rom, e ≠ .load rom) → agentStep e s = .next t → t = s)

/-- R320, R52: a load of at most 3584 bytes, in any mode, puts every piece of the machine's state at its reset value, the
ROM at 0x200 upward and the font at FONT_BASE. (The glyph bytes, `fontGlyphs`, are R46's table from general knowledge,
presumed by the model: log 4.) -/
def Obligations.LoadInitialisesTheMachine : Prop :=
  ∀ (s : State) (rom : List Byte), rom.length ≤ 3584 →
    ∃ t, agentStep (.load rom) s = .next t ∧
      (∀ r : Reg, t.v[r] = 0) ∧ t.pc = 0x200 ∧ t.i = 0 ∧ (∀ k : Fin 16, t.stack[k] = 0) ∧ t.sp = 0 ∧
      t.dt = 0 ∧ t.st = 0 ∧ (∀ (r : Fin 32) (c : Fin 64), t.disp[r][c] = false) ∧ (∀ k : Key, t.key[k] = false) ∧
      t.mode = .running ∧ t.faultRecord = none ∧ t.needsRedraw = false ∧ t.keyLatch = none ∧
      (∀ j, j < rom.length → t.mem.read (0x200 + j) = rom.getD j 0) ∧
      (∀ j, j < 80 → t.mem.read (Config.fontBase.val + j) = fontGlyphs.getD j 0) ∧
      (∀ a, 0x200 + rom.length ≤ a ∨ a < Config.fontBase.val ∨ Config.fontBase.val + 80 ≤ a ∧ a < 0x200 →
        t.mem.read a = 0)

/-- R321: a longer ROM copies no byte and halts the machine with RomTooLarge and the length (up to the 65535 a 16-bit
value can hold; above it the value is free, log 12). The model's own `agenda` and `draws` go on (log 20). -/
def Obligations.LoadOfTooLargeARomHalts : Prop :=
  ∀ (s : State) (rom : List Byte), 3584 < rom.length →
    ∃ value, agentStep (.load rom) s = .next { State.reset with
      mode := .halted .romTooLarge
      faultRecord := some { kind := .romTooLarge, pc := 0x200, word := none, value := some value }
      agenda := s.agenda
      draws := s.draws } ∧
    (rom.length < 65536 → value.toNat = rom.length)

/-- What the state after reset holds, and that it is the load of the empty ROM: zero outside the font table, the glyph bytes
in it. (R52 gives the values after a load. That the state before any load is that of the empty ROM's load is the model's
choice, log 14; the glyph bytes are presumed, log 4.) -/
def Obligations.ResetIsTheLoadOfTheEmptyRom : Prop :=
  State.reset.loadRom [] = State.reset ∧ State.reset.pc = 0x200 ∧ State.reset.mode = .running ∧ State.reset.sp = 0 ∧
    (∀ j, j < 80 → State.reset.mem.read (Config.fontBase.val + j) = fontGlyphs.getD j 0) ∧
    (∀ a, a < Config.fontBase.val ∨ Config.fontBase.val + 80 ≤ a → State.reset.mem.read a = 0)

/-- R307, R44: the outputs follow the committed state: tone_on is ST > 0, and the snapshot is row-major, 2048 pixels. -/
def Obligations.OutputsFollowTheState : Prop :=
  ∀ s : State, s.outputs.display.length = 2048 ∧
    (∀ (r : Fin 32) (c : Fin 64), s.outputs.display[r.val * 64 + c.val]? = some s.disp[r][c]) ∧
    (s.outputs.toneOn = true ↔ s.st ≠ 0) ∧ s.outputs.needsRedraw = s.needsRedraw ∧ s.outputs.mode = s.mode ∧
    s.outputs.faultRecord = s.faultRecord

/-! ## The control state -/

/-- R36, R47, R48, R50, R263, R283, R292 read together: an instruction changes the mode only by GetKey's wait or a fault, the
record only by a fault, which names the instruction's address, and the latch only to none, by GetKey or a fault; one that
moves PC leaves all three alone. -/
def Obligations.ModeRecordLatchAndPcHaveTheirWriters : Prop :=
  ∀ (i : Instr) (s t : State), exec i s = .next t →
    (t.mode ≠ s.mode → (∃ x, i = .getKey x ∧ t.mode = .awaitingKey x) ∨ ∃ k, t.mode = .halted k) ∧
    (t.faultRecord ≠ s.faultRecord → ∃ r, t.faultRecord = some r ∧ t.mode = .halted r.kind ∧ r.pc = s.pc) ∧
    (t.keyLatch ≠ s.keyLatch → t.keyLatch = none ∧ ((∃ x, i = .getKey x) ∨ ∃ k, t.mode = .halted k)) ∧
    (t.pc ≠ s.pc → t.mode = s.mode ∧ t.faultRecord = s.faultRecord ∧ t.keyLatch = s.keyLatch)
end

