-- ==== Sys2Proof/Laws/Memory.lean ====
section
/-! SUPPORT. The laws of memory: a read after a write, and that every operation keeps the canonical form. -/

namespace Sys2Proof.Machine.Memory

theorem read_erase (m : Memory) (a b : Nat) :
    (m.erase a).read b = if b = a then resetByte b else m.read b := by
  induction m with
  | nil => simp [erase, read]
  | cons c rest ih =>
    obtain ⟨c, w⟩ := c
    by_cases hc : c = a
    · subst hc; simp only [erase, if_true, ih, read]; split_ifs <;> simp_all
    · simp only [erase, hc, if_false, read, ih]; split_ifs <;> simp_all

theorem read_insert (m : Memory) (a b : Nat) (v : Byte) :
    (m.insert a v).read b = if b = a then v else m.read b := by
  induction m with
  | nil => simp only [insert, read]; split_ifs <;> simp_all
  | cons c rest ih =>
    obtain ⟨c, w⟩ := c
    simp only [insert]
    split_ifs with h1 h2 h3 <;> simp only [read, ih] <;> split_ifs <;> first | rfl | omega

/-- R72, R73: a write is seen by a read of its address and by no other read. -/
theorem read_write (m : Memory) (a b : Nat) (v : Byte) :
    (m.write a v).read b = if b = a then v else m.read b := by
  unfold write
  split_ifs with hv hb hb
  · rw [read_erase, if_pos hb, hv, hb]
  · rw [read_erase, if_neg hb]
  · rw [read_insert, if_pos hb]
  · rw [read_insert, if_neg hb]

theorem read_write_same (m : Memory) (a : Nat) (v : Byte) : (m.write a v).read a = v := by simp [read_write]

theorem read_write_other (m : Memory) {a b : Nat} (v : Byte) (h : b ≠ a) : (m.write a v).read b = m.read b := by
  simp [read_write, h]

/-- A run of writes: the bytes stand at their addresses, every other address reads as before. -/
theorem read_writeList (bytes : List Byte) (m : Memory) (a b : Nat) :
    (m.writeList a bytes).read b = if a ≤ b ∧ b < a + bytes.length then bytes.getD (b - a) 0 else m.read b := by
  induction bytes generalizing m a with
  | nil => simp only [writeList, List.length_nil]; rw [if_neg (by omega)]
  | cons c rest ih =>
    simp only [writeList, ih, read_write, List.length_cons]
    by_cases hb : b = a
    · subst hb; simp
    · by_cases h : a + 1 ≤ b ∧ b < a + 1 + rest.length
      · obtain ⟨k, rfl⟩ : ∃ k, b = a + 1 + k := ⟨b - (a + 1), by omega⟩
        rw [if_pos h, if_pos (by omega), show a + 1 + k - a = k + 1 by omega, show a + 1 + k - (a + 1) = k by omega,
          List.getD_cons_succ]
      · rw [if_neg h, if_neg hb, if_neg (by omega)]

/-- What a loaded image reads as (R320). -/
theorem read_ofBytes (bytes : List Byte) (a b : Nat) :
    (ofBytes a bytes).read b = if a ≤ b ∧ b < a + bytes.length then bytes.getD (b - a) 0 else resetByte b := by
  induction bytes generalizing a with
  | nil => simp only [ofBytes, List.length_nil]; rw [if_neg (by omega)]; rfl
  | cons c rest ih =>
    have key : (ofBytes (a + 1) rest).read b =
        if a + 1 ≤ b ∧ b < a + 1 + rest.length then rest.getD (b - (a + 1)) 0 else resetByte b := ih (a + 1)
    simp only [ofBytes, List.length_cons]
    by_cases hb : b = a
    · subst hb
      split_ifs with hc h2 h2
      · rw [key, if_neg (by omega), Nat.sub_self, List.getD_cons_zero, hc]
      · omega
      · simp [read]
      · omega
    · have step : (if c = resetByte a then ofBytes (a + 1) rest else (a, c) :: ofBytes (a + 1) rest).read b
          = (ofBytes (a + 1) rest).read b := by
        split_ifs
        · rfl
        · simp [read, Ne.symm hb]
      rw [step, key]
      by_cases h : a + 1 ≤ b ∧ b < a + 1 + rest.length
      · obtain ⟨k, rfl⟩ : ∃ k, b = a + 1 + k := ⟨b - (a + 1), by omega⟩
        rw [if_pos h, if_pos (by omega), show a + 1 + k - a = k + 1 by omega, show a + 1 + k - (a + 1) = k by omega,
          List.getD_cons_succ]
      · rw [if_neg h, if_neg (by omega)]

/-! ## The canonical form -/

theorem wfAbove_cons {lo a : Nat} {v : Byte} {rest : Memory} :
    wfAbove lo ((a, v) :: rest) = true ↔
      lo ≤ a ∧ a < Config.memSize ∧ v ≠ resetByte a ∧ wfAbove (a + 1) rest = true := by
  simp [wfAbove, and_assoc]

theorem wfAbove_mono {lo lo' : Nat} (hl : lo ≤ lo') {m : Memory} (h : wfAbove lo' m = true) : wfAbove lo m = true := by
  cases m with
  | nil => rfl
  | cons c rest =>
    obtain ⟨b, w⟩ := c
    rw [wfAbove_cons] at h ⊢
    exact ⟨by omega, h.2⟩

theorem erase_wfAbove {lo : Nat} (a : Nat) {m : Memory} (h : wfAbove lo m = true) : wfAbove lo (m.erase a) = true := by
  induction m generalizing lo with
  | nil => rfl
  | cons c rest ih =>
    obtain ⟨b, w⟩ := c
    rw [wfAbove_cons] at h
    simp only [erase]
    split_ifs
    · exact wfAbove_mono (by omega) (ih h.2.2.2)
    · rw [wfAbove_cons]; exact ⟨h.1, h.2.1, h.2.2.1, ih h.2.2.2⟩

theorem insert_wfAbove {lo a : Nat} {v : Byte} (ha : a < Config.memSize) (hv : v ≠ resetByte a) (hlo : lo ≤ a)
    {m : Memory} (h : wfAbove lo m = true) : wfAbove lo (m.insert a v) = true := by
  induction m generalizing lo with
  | nil => simpa [insert, wfAbove_cons] using ⟨hlo, ha, hv, rfl⟩
  | cons c rest ih =>
    obtain ⟨b, w⟩ := c
    have h' := wfAbove_cons.1 h
    simp only [insert]
    split_ifs with h1 h2
    · rw [wfAbove_cons, wfAbove_cons]
      exact ⟨hlo, ha, hv, by omega, h'.2⟩
    · subst h2
      rw [wfAbove_cons]; exact ⟨hlo, ha, hv, h'.2.2.2⟩
    · rw [wfAbove_cons]; exact ⟨h'.1, h'.2.1, h'.2.2.1, ih (by omega) h'.2.2.2⟩

/-- A write to a valid address keeps the canonical form. -/
theorem write_wf {m : Memory} (h : m.wf = true) {a : Nat} (ha : a < Config.memSize) (v : Byte) :
    (m.write a v).wf = true := by
  unfold write
  split_ifs with hv
  · exact erase_wfAbove a h
  · exact insert_wfAbove ha hv (Nat.zero_le a) h

theorem writeList_wf (bytes : List Byte) {m : Memory} (h : m.wf = true) {a : Nat}
    (ha : a + bytes.length ≤ Config.memSize) : (m.writeList a bytes).wf = true := by
  induction bytes generalizing m a with
  | nil => exact h
  | cons c rest ih =>
    simp only [List.length_cons] at ha
    exact ih (write_wf h (by omega) c) (by omega)

theorem writeWord_wf {m : Memory} (h : m.wf = true) {a : Nat} (ha : a + 1 < Config.memSize) (w : Word) :
    (m.writeWord a w).wf = true := writeList_wf _ h (by simpa using by omega)

theorem ofBytes_wfAbove (bytes : List Byte) {a : Nat} (ha : a + bytes.length ≤ Config.memSize) :
    wfAbove a (ofBytes a bytes) = true := by
  induction bytes generalizing a with
  | nil => rfl
  | cons c rest ih =>
    simp only [List.length_cons] at ha
    have := ih (a := a + 1) (by omega)
    simp only [ofBytes]
    split_ifs with hc
    · exact wfAbove_mono (Nat.le_succ a) this
    · rw [wfAbove_cons]; exact ⟨le_refl a, by omega, hc, this⟩

/-- A loaded image that fits memory is in canonical form. -/
theorem ofBytes_wf (bytes : List Byte) {a : Nat} (ha : a + bytes.length ≤ Config.memSize) :
    (ofBytes a bytes).wf = true := wfAbove_mono (Nat.zero_le a) (ofBytes_wfAbove bytes ha)

/-- The memory of the reset state is in canonical form. -/
theorem reset_mem_wf : State.reset.mem.wf = true := rfl

/-! ## Two canonical memories that read alike are equal -/

theorem read_of_wfAbove {lo a : Nat} {m : Memory} (h : wfAbove lo m = true) (ha : a < lo) : m.read a = resetByte a := by
  induction m generalizing lo with
  | nil => rfl
  | cons c rest ih =>
    obtain ⟨b, w⟩ := c
    rw [wfAbove_cons] at h
    rw [read, if_neg (by omega)]
    exact ih h.2.2.2 (by omega)

theorem ext_of_wfAbove {lo lo' : Nat} {m m' : Memory} (h : wfAbove lo m = true) (h' : wfAbove lo' m' = true)
    (hr : ∀ a, m.read a = m'.read a) : m = m' := by
  induction m generalizing lo lo' m' with
  | nil =>
    cases m' with
    | nil => rfl
    | cons c rest =>
      obtain ⟨b, w⟩ := c
      rw [wfAbove_cons] at h'
      have := hr b
      rw [read, read, if_pos rfl] at this
      exact absurd this.symm h'.2.2.1
  | cons c rest ih =>
    obtain ⟨a, v⟩ := c
    have hc := wfAbove_cons.1 h
    cases m' with
    | nil =>
      have := hr a
      simp only [read, if_true] at this
      exact absurd this hc.2.2.1
    | cons d rest' =>
      obtain ⟨b, w⟩ := d
      have hd := wfAbove_cons.1 h'
      have hab : a = b := by
        rcases Nat.lt_trichotomy a b with hlt | heq | hgt
        · have := hr a
          rw [read, if_pos rfl, read, if_neg (by omega), read_of_wfAbove hd.2.2.2 (by omega)] at this
          exact absurd this hc.2.2.1
        · exact heq
        · have := hr b
          rw [read, if_neg (by omega), read_of_wfAbove hc.2.2.2 (by omega), read, if_pos rfl] at this
          exact absurd this.symm hd.2.2.1
      subst hab
      have hv : v = w := by simpa [read] using hr a
      subst hv
      refine congrArg _ (ih hc.2.2.2 hd.2.2.2 fun x => ?_)
      by_cases hx : x = a
      · subst hx
        rw [read_of_wfAbove hc.2.2.2 (Nat.lt_succ_self x), read_of_wfAbove hd.2.2.2 (Nat.lt_succ_self x)]
      · have := hr x
        rwa [read, if_neg (Ne.symm hx), read, if_neg (Ne.symm hx)] at this

/-- Equal memories are equal data: the canonical form is one per contents. -/
theorem ext_of_wf {m m' : Memory} (h : m.wf = true) (h' : m'.wf = true) (hr : ∀ a, m.read a = m'.read a) : m = m' :=
  ext_of_wfAbove h h' hr

end Sys2Proof.Machine.Memory
end

