-- ==== Sys2Proof/Laws/State.lean ====
section
/-! SUPPORT. One lemma per field per update of State, each true by rfl, so that no later proof unfolds a record update. -/

namespace Sys2Proof.Machine.State

variable (s : State)

/-! ## setReg -/

@[simp] theorem setReg_v (x : Reg) (b : Byte) : (s.setReg x b).v = s.v.set x b := rfl
@[simp] theorem setReg_pc (x : Reg) (b : Byte) : (s.setReg x b).pc = s.pc := rfl
@[simp] theorem setReg_i (x : Reg) (b : Byte) : (s.setReg x b).i = s.i := rfl
@[simp] theorem setReg_stack (x : Reg) (b : Byte) : (s.setReg x b).stack = s.stack := rfl
@[simp] theorem setReg_sp (x : Reg) (b : Byte) : (s.setReg x b).sp = s.sp := rfl
@[simp] theorem setReg_mem (x : Reg) (b : Byte) : (s.setReg x b).mem = s.mem := rfl
@[simp] theorem setReg_dt (x : Reg) (b : Byte) : (s.setReg x b).dt = s.dt := rfl
@[simp] theorem setReg_st (x : Reg) (b : Byte) : (s.setReg x b).st = s.st := rfl
@[simp] theorem setReg_disp (x : Reg) (b : Byte) : (s.setReg x b).disp = s.disp := rfl
@[simp] theorem setReg_key (x : Reg) (b : Byte) : (s.setReg x b).key = s.key := rfl
@[simp] theorem setReg_mode (x : Reg) (b : Byte) : (s.setReg x b).mode = s.mode := rfl
@[simp] theorem setReg_faultRecord (x : Reg) (b : Byte) : (s.setReg x b).faultRecord = s.faultRecord := rfl
@[simp] theorem setReg_needsRedraw (x : Reg) (b : Byte) : (s.setReg x b).needsRedraw = s.needsRedraw := rfl
@[simp] theorem setReg_keyLatch (x : Reg) (b : Byte) : (s.setReg x b).keyLatch = s.keyLatch := rfl
@[simp] theorem setReg_agenda (x : Reg) (b : Byte) : (s.setReg x b).agenda = s.agenda := rfl
@[simp] theorem setReg_draws (x : Reg) (b : Byte) : (s.setReg x b).draws = s.draws := rfl

/-! ## setPc -/

@[simp] theorem setPc_v (a : Word) : (s.setPc a).v = s.v := rfl
@[simp] theorem setPc_pc (a : Word) : (s.setPc a).pc = a := rfl
@[simp] theorem setPc_i (a : Word) : (s.setPc a).i = s.i := rfl
@[simp] theorem setPc_stack (a : Word) : (s.setPc a).stack = s.stack := rfl
@[simp] theorem setPc_sp (a : Word) : (s.setPc a).sp = s.sp := rfl
@[simp] theorem setPc_mem (a : Word) : (s.setPc a).mem = s.mem := rfl
@[simp] theorem setPc_dt (a : Word) : (s.setPc a).dt = s.dt := rfl
@[simp] theorem setPc_st (a : Word) : (s.setPc a).st = s.st := rfl
@[simp] theorem setPc_disp (a : Word) : (s.setPc a).disp = s.disp := rfl
@[simp] theorem setPc_key (a : Word) : (s.setPc a).key = s.key := rfl
@[simp] theorem setPc_mode (a : Word) : (s.setPc a).mode = s.mode := rfl
@[simp] theorem setPc_faultRecord (a : Word) : (s.setPc a).faultRecord = s.faultRecord := rfl
@[simp] theorem setPc_needsRedraw (a : Word) : (s.setPc a).needsRedraw = s.needsRedraw := rfl
@[simp] theorem setPc_keyLatch (a : Word) : (s.setPc a).keyLatch = s.keyLatch := rfl
@[simp] theorem setPc_agenda (a : Word) : (s.setPc a).agenda = s.agenda := rfl
@[simp] theorem setPc_draws (a : Word) : (s.setPc a).draws = s.draws := rfl

/-! ## setI -/

@[simp] theorem setI_v (a : Word) : (s.setI a).v = s.v := rfl
@[simp] theorem setI_pc (a : Word) : (s.setI a).pc = s.pc := rfl
@[simp] theorem setI_i (a : Word) : (s.setI a).i = a := rfl
@[simp] theorem setI_stack (a : Word) : (s.setI a).stack = s.stack := rfl
@[simp] theorem setI_sp (a : Word) : (s.setI a).sp = s.sp := rfl
@[simp] theorem setI_mem (a : Word) : (s.setI a).mem = s.mem := rfl
@[simp] theorem setI_dt (a : Word) : (s.setI a).dt = s.dt := rfl
@[simp] theorem setI_st (a : Word) : (s.setI a).st = s.st := rfl
@[simp] theorem setI_disp (a : Word) : (s.setI a).disp = s.disp := rfl
@[simp] theorem setI_key (a : Word) : (s.setI a).key = s.key := rfl
@[simp] theorem setI_mode (a : Word) : (s.setI a).mode = s.mode := rfl
@[simp] theorem setI_faultRecord (a : Word) : (s.setI a).faultRecord = s.faultRecord := rfl
@[simp] theorem setI_needsRedraw (a : Word) : (s.setI a).needsRedraw = s.needsRedraw := rfl
@[simp] theorem setI_keyLatch (a : Word) : (s.setI a).keyLatch = s.keyLatch := rfl
@[simp] theorem setI_agenda (a : Word) : (s.setI a).agenda = s.agenda := rfl
@[simp] theorem setI_draws (a : Word) : (s.setI a).draws = s.draws := rfl

/-! ## setMem -/

@[simp] theorem setMem_v (m : Memory) : (s.setMem m).v = s.v := rfl
@[simp] theorem setMem_pc (m : Memory) : (s.setMem m).pc = s.pc := rfl
@[simp] theorem setMem_i (m : Memory) : (s.setMem m).i = s.i := rfl
@[simp] theorem setMem_stack (m : Memory) : (s.setMem m).stack = s.stack := rfl
@[simp] theorem setMem_sp (m : Memory) : (s.setMem m).sp = s.sp := rfl
@[simp] theorem setMem_mem (m : Memory) : (s.setMem m).mem = m := rfl
@[simp] theorem setMem_dt (m : Memory) : (s.setMem m).dt = s.dt := rfl
@[simp] theorem setMem_st (m : Memory) : (s.setMem m).st = s.st := rfl
@[simp] theorem setMem_disp (m : Memory) : (s.setMem m).disp = s.disp := rfl
@[simp] theorem setMem_key (m : Memory) : (s.setMem m).key = s.key := rfl
@[simp] theorem setMem_mode (m : Memory) : (s.setMem m).mode = s.mode := rfl
@[simp] theorem setMem_faultRecord (m : Memory) : (s.setMem m).faultRecord = s.faultRecord := rfl
@[simp] theorem setMem_needsRedraw (m : Memory) : (s.setMem m).needsRedraw = s.needsRedraw := rfl
@[simp] theorem setMem_keyLatch (m : Memory) : (s.setMem m).keyLatch = s.keyLatch := rfl
@[simp] theorem setMem_agenda (m : Memory) : (s.setMem m).agenda = s.agenda := rfl
@[simp] theorem setMem_draws (m : Memory) : (s.setMem m).draws = s.draws := rfl

/-! ## setDelay -/

@[simp] theorem setDelay_v (b : Byte) : (s.setDelay b).v = s.v := rfl
@[simp] theorem setDelay_pc (b : Byte) : (s.setDelay b).pc = s.pc := rfl
@[simp] theorem setDelay_i (b : Byte) : (s.setDelay b).i = s.i := rfl
@[simp] theorem setDelay_stack (b : Byte) : (s.setDelay b).stack = s.stack := rfl
@[simp] theorem setDelay_sp (b : Byte) : (s.setDelay b).sp = s.sp := rfl
@[simp] theorem setDelay_mem (b : Byte) : (s.setDelay b).mem = s.mem := rfl
@[simp] theorem setDelay_dt (b : Byte) : (s.setDelay b).dt = b := rfl
@[simp] theorem setDelay_st (b : Byte) : (s.setDelay b).st = s.st := rfl
@[simp] theorem setDelay_disp (b : Byte) : (s.setDelay b).disp = s.disp := rfl
@[simp] theorem setDelay_key (b : Byte) : (s.setDelay b).key = s.key := rfl
@[simp] theorem setDelay_mode (b : Byte) : (s.setDelay b).mode = s.mode := rfl
@[simp] theorem setDelay_faultRecord (b : Byte) : (s.setDelay b).faultRecord = s.faultRecord := rfl
@[simp] theorem setDelay_needsRedraw (b : Byte) : (s.setDelay b).needsRedraw = s.needsRedraw := rfl
@[simp] theorem setDelay_keyLatch (b : Byte) : (s.setDelay b).keyLatch = s.keyLatch := rfl
@[simp] theorem setDelay_agenda (b : Byte) : (s.setDelay b).agenda = s.agenda := rfl
@[simp] theorem setDelay_draws (b : Byte) : (s.setDelay b).draws = s.draws := rfl

/-! ## setSound -/

@[simp] theorem setSound_v (b : Byte) : (s.setSound b).v = s.v := rfl
@[simp] theorem setSound_pc (b : Byte) : (s.setSound b).pc = s.pc := rfl
@[simp] theorem setSound_i (b : Byte) : (s.setSound b).i = s.i := rfl
@[simp] theorem setSound_stack (b : Byte) : (s.setSound b).stack = s.stack := rfl
@[simp] theorem setSound_sp (b : Byte) : (s.setSound b).sp = s.sp := rfl
@[simp] theorem setSound_mem (b : Byte) : (s.setSound b).mem = s.mem := rfl
@[simp] theorem setSound_dt (b : Byte) : (s.setSound b).dt = s.dt := rfl
@[simp] theorem setSound_st (b : Byte) : (s.setSound b).st = b := rfl
@[simp] theorem setSound_disp (b : Byte) : (s.setSound b).disp = s.disp := rfl
@[simp] theorem setSound_key (b : Byte) : (s.setSound b).key = s.key := rfl
@[simp] theorem setSound_mode (b : Byte) : (s.setSound b).mode = s.mode := rfl
@[simp] theorem setSound_faultRecord (b : Byte) : (s.setSound b).faultRecord = s.faultRecord := rfl
@[simp] theorem setSound_needsRedraw (b : Byte) : (s.setSound b).needsRedraw = s.needsRedraw := rfl
@[simp] theorem setSound_keyLatch (b : Byte) : (s.setSound b).keyLatch = s.keyLatch := rfl
@[simp] theorem setSound_agenda (b : Byte) : (s.setSound b).agenda = s.agenda := rfl
@[simp] theorem setSound_draws (b : Byte) : (s.setSound b).draws = s.draws := rfl

/-! ## setScreen -/

@[simp] theorem setScreen_v (d : Screen) : (s.setScreen d).v = s.v := rfl
@[simp] theorem setScreen_pc (d : Screen) : (s.setScreen d).pc = s.pc := rfl
@[simp] theorem setScreen_i (d : Screen) : (s.setScreen d).i = s.i := rfl
@[simp] theorem setScreen_stack (d : Screen) : (s.setScreen d).stack = s.stack := rfl
@[simp] theorem setScreen_sp (d : Screen) : (s.setScreen d).sp = s.sp := rfl
@[simp] theorem setScreen_mem (d : Screen) : (s.setScreen d).mem = s.mem := rfl
@[simp] theorem setScreen_dt (d : Screen) : (s.setScreen d).dt = s.dt := rfl
@[simp] theorem setScreen_st (d : Screen) : (s.setScreen d).st = s.st := rfl
@[simp] theorem setScreen_disp (d : Screen) : (s.setScreen d).disp = d := rfl
@[simp] theorem setScreen_key (d : Screen) : (s.setScreen d).key = s.key := rfl
@[simp] theorem setScreen_mode (d : Screen) : (s.setScreen d).mode = s.mode := rfl
@[simp] theorem setScreen_faultRecord (d : Screen) : (s.setScreen d).faultRecord = s.faultRecord := rfl
@[simp] theorem setScreen_needsRedraw (d : Screen) : (s.setScreen d).needsRedraw = true := rfl
@[simp] theorem setScreen_keyLatch (d : Screen) : (s.setScreen d).keyLatch = s.keyLatch := rfl
@[simp] theorem setScreen_agenda (d : Screen) : (s.setScreen d).agenda = s.agenda := rfl
@[simp] theorem setScreen_draws (d : Screen) : (s.setScreen d).draws = s.draws := rfl

/-! ## enterWait -/

@[simp] theorem enterWait_v (x : Reg) : (s.enterWait x).v = s.v := rfl
@[simp] theorem enterWait_pc (x : Reg) : (s.enterWait x).pc = s.pc := rfl
@[simp] theorem enterWait_i (x : Reg) : (s.enterWait x).i = s.i := rfl
@[simp] theorem enterWait_stack (x : Reg) : (s.enterWait x).stack = s.stack := rfl
@[simp] theorem enterWait_sp (x : Reg) : (s.enterWait x).sp = s.sp := rfl
@[simp] theorem enterWait_mem (x : Reg) : (s.enterWait x).mem = s.mem := rfl
@[simp] theorem enterWait_dt (x : Reg) : (s.enterWait x).dt = s.dt := rfl
@[simp] theorem enterWait_st (x : Reg) : (s.enterWait x).st = s.st := rfl
@[simp] theorem enterWait_disp (x : Reg) : (s.enterWait x).disp = s.disp := rfl
@[simp] theorem enterWait_key (x : Reg) : (s.enterWait x).key = s.key := rfl
@[simp] theorem enterWait_mode (x : Reg) : (s.enterWait x).mode = .awaitingKey x := rfl
@[simp] theorem enterWait_faultRecord (x : Reg) : (s.enterWait x).faultRecord = s.faultRecord := rfl
@[simp] theorem enterWait_needsRedraw (x : Reg) : (s.enterWait x).needsRedraw = s.needsRedraw := rfl
@[simp] theorem enterWait_keyLatch (x : Reg) : (s.enterWait x).keyLatch = none := rfl
@[simp] theorem enterWait_agenda (x : Reg) : (s.enterWait x).agenda = s.agenda := rfl
@[simp] theorem enterWait_draws (x : Reg) : (s.enterWait x).draws = s.draws := rfl

/-! ## leaveWait -/

@[simp] theorem leaveWait_v : s.leaveWait.v = s.v := rfl
@[simp] theorem leaveWait_pc : s.leaveWait.pc = s.pc := rfl
@[simp] theorem leaveWait_i : s.leaveWait.i = s.i := rfl
@[simp] theorem leaveWait_stack : s.leaveWait.stack = s.stack := rfl
@[simp] theorem leaveWait_sp : s.leaveWait.sp = s.sp := rfl
@[simp] theorem leaveWait_mem : s.leaveWait.mem = s.mem := rfl
@[simp] theorem leaveWait_dt : s.leaveWait.dt = s.dt := rfl
@[simp] theorem leaveWait_st : s.leaveWait.st = s.st := rfl
@[simp] theorem leaveWait_disp : s.leaveWait.disp = s.disp := rfl
@[simp] theorem leaveWait_key : s.leaveWait.key = s.key := rfl
@[simp] theorem leaveWait_mode : s.leaveWait.mode = .running := rfl
@[simp] theorem leaveWait_faultRecord : s.leaveWait.faultRecord = s.faultRecord := rfl
@[simp] theorem leaveWait_needsRedraw : s.leaveWait.needsRedraw = s.needsRedraw := rfl
@[simp] theorem leaveWait_keyLatch : s.leaveWait.keyLatch = none := rfl
@[simp] theorem leaveWait_agenda : s.leaveWait.agenda = s.agenda := rfl
@[simp] theorem leaveWait_draws : s.leaveWait.draws = s.draws := rfl

/-! ## countDraw -/

@[simp] theorem countDraw_v : s.countDraw.v = s.v := rfl
@[simp] theorem countDraw_pc : s.countDraw.pc = s.pc := rfl
@[simp] theorem countDraw_i : s.countDraw.i = s.i := rfl
@[simp] theorem countDraw_stack : s.countDraw.stack = s.stack := rfl
@[simp] theorem countDraw_sp : s.countDraw.sp = s.sp := rfl
@[simp] theorem countDraw_mem : s.countDraw.mem = s.mem := rfl
@[simp] theorem countDraw_dt : s.countDraw.dt = s.dt := rfl
@[simp] theorem countDraw_st : s.countDraw.st = s.st := rfl
@[simp] theorem countDraw_disp : s.countDraw.disp = s.disp := rfl
@[simp] theorem countDraw_key : s.countDraw.key = s.key := rfl
@[simp] theorem countDraw_mode : s.countDraw.mode = s.mode := rfl
@[simp] theorem countDraw_faultRecord : s.countDraw.faultRecord = s.faultRecord := rfl
@[simp] theorem countDraw_needsRedraw : s.countDraw.needsRedraw = s.needsRedraw := rfl
@[simp] theorem countDraw_keyLatch : s.countDraw.keyLatch = s.keyLatch := rfl
@[simp] theorem countDraw_agenda : s.countDraw.agenda = s.agenda := rfl
@[simp] theorem countDraw_draws : s.countDraw.draws = s.draws + 1 := rfl

/-! ## takeFault -/

@[simp] theorem takeFault_v (k : FaultKind) (w : Option Word) : (s.takeFault k w).v = s.v := rfl
@[simp] theorem takeFault_pc (k : FaultKind) (w : Option Word) : (s.takeFault k w).pc = s.pc := rfl
@[simp] theorem takeFault_i (k : FaultKind) (w : Option Word) : (s.takeFault k w).i = s.i := rfl
@[simp] theorem takeFault_stack (k : FaultKind) (w : Option Word) : (s.takeFault k w).stack = s.stack := rfl
@[simp] theorem takeFault_sp (k : FaultKind) (w : Option Word) : (s.takeFault k w).sp = s.sp := rfl
@[simp] theorem takeFault_mem (k : FaultKind) (w : Option Word) : (s.takeFault k w).mem = s.mem := rfl
@[simp] theorem takeFault_dt (k : FaultKind) (w : Option Word) : (s.takeFault k w).dt = s.dt := rfl
@[simp] theorem takeFault_st (k : FaultKind) (w : Option Word) : (s.takeFault k w).st = s.st := rfl
@[simp] theorem takeFault_disp (k : FaultKind) (w : Option Word) : (s.takeFault k w).disp = s.disp := rfl
@[simp] theorem takeFault_key (k : FaultKind) (w : Option Word) : (s.takeFault k w).key = s.key := rfl
@[simp] theorem takeFault_mode (k : FaultKind) (w : Option Word) : (s.takeFault k w).mode = .halted k := rfl
@[simp] theorem takeFault_faultRecord (k : FaultKind) (w : Option Word) :
    (s.takeFault k w).faultRecord = some { kind := k, pc := s.pc, word := s.fetch, value := w } :=
  rfl
@[simp] theorem takeFault_needsRedraw (k : FaultKind) (w : Option Word) : (s.takeFault k w).needsRedraw = s.needsRedraw := rfl
@[simp] theorem takeFault_keyLatch (k : FaultKind) (w : Option Word) : (s.takeFault k w).keyLatch = none := rfl
@[simp] theorem takeFault_agenda (k : FaultKind) (w : Option Word) : (s.takeFault k w).agenda = s.agenda := rfl
@[simp] theorem takeFault_draws (k : FaultKind) (w : Option Word) : (s.takeFault k w).draws = s.draws := rfl

/-! ## dequeue -/

@[simp] theorem dequeue_v : s.dequeue.v = s.v := rfl
@[simp] theorem dequeue_pc : s.dequeue.pc = s.pc := rfl
@[simp] theorem dequeue_i : s.dequeue.i = s.i := rfl
@[simp] theorem dequeue_stack : s.dequeue.stack = s.stack := rfl
@[simp] theorem dequeue_sp : s.dequeue.sp = s.sp := rfl
@[simp] theorem dequeue_mem : s.dequeue.mem = s.mem := rfl
@[simp] theorem dequeue_dt : s.dequeue.dt = s.dt := rfl
@[simp] theorem dequeue_st : s.dequeue.st = s.st := rfl
@[simp] theorem dequeue_disp : s.dequeue.disp = s.disp := rfl
@[simp] theorem dequeue_key : s.dequeue.key = s.key := rfl
@[simp] theorem dequeue_mode : s.dequeue.mode = s.mode := rfl
@[simp] theorem dequeue_faultRecord : s.dequeue.faultRecord = s.faultRecord := rfl
@[simp] theorem dequeue_needsRedraw : s.dequeue.needsRedraw = s.needsRedraw := rfl
@[simp] theorem dequeue_keyLatch : s.dequeue.keyLatch = s.keyLatch := rfl
@[simp] theorem dequeue_agenda : s.dequeue.agenda = s.agenda.tail := rfl
@[simp] theorem dequeue_draws : s.dequeue.draws = s.draws := rfl

/-! ## keyUp -/

@[simp] theorem keyUp_v (k : Key) : (s.keyUp k).v = s.v := by
  unfold keyUp ifLive; split <;> rfl
@[simp] theorem keyUp_pc (k : Key) : (s.keyUp k).pc = s.pc := by
  unfold keyUp ifLive; split <;> rfl
@[simp] theorem keyUp_i (k : Key) : (s.keyUp k).i = s.i := by
  unfold keyUp ifLive; split <;> rfl
@[simp] theorem keyUp_stack (k : Key) : (s.keyUp k).stack = s.stack := by
  unfold keyUp ifLive; split <;> rfl
@[simp] theorem keyUp_sp (k : Key) : (s.keyUp k).sp = s.sp := by
  unfold keyUp ifLive; split <;> rfl
@[simp] theorem keyUp_mem (k : Key) : (s.keyUp k).mem = s.mem := by
  unfold keyUp ifLive; split <;> rfl
@[simp] theorem keyUp_dt (k : Key) : (s.keyUp k).dt = s.dt := by
  unfold keyUp ifLive; split <;> rfl
@[simp] theorem keyUp_st (k : Key) : (s.keyUp k).st = s.st := by
  unfold keyUp ifLive; split <;> rfl
@[simp] theorem keyUp_disp (k : Key) : (s.keyUp k).disp = s.disp := by
  unfold keyUp ifLive; split <;> rfl
@[simp] theorem keyUp_key (k : Key) : (s.keyUp k).key = if s.mode.live then s.key.set k false else s.key := by
  unfold keyUp ifLive; split <;> rfl
@[simp] theorem keyUp_mode (k : Key) : (s.keyUp k).mode = s.mode := by
  unfold keyUp ifLive; split <;> rfl
@[simp] theorem keyUp_faultRecord (k : Key) : (s.keyUp k).faultRecord = s.faultRecord := by
  unfold keyUp ifLive; split <;> rfl
@[simp] theorem keyUp_needsRedraw (k : Key) : (s.keyUp k).needsRedraw = s.needsRedraw := by
  unfold keyUp ifLive; split <;> rfl
@[simp] theorem keyUp_keyLatch (k : Key) : (s.keyUp k).keyLatch = s.keyLatch := by
  unfold keyUp ifLive; split <;> rfl
@[simp] theorem keyUp_agenda (k : Key) : (s.keyUp k).agenda = s.agenda := by
  unfold keyUp ifLive; split <;> rfl
@[simp] theorem keyUp_draws (k : Key) : (s.keyUp k).draws = s.draws := by
  unfold keyUp ifLive; split <;> rfl

/-! ## ackRedraw -/

@[simp] theorem ackRedraw_v : s.ackRedraw.v = s.v := by
  unfold ackRedraw ifLive; split <;> rfl
@[simp] theorem ackRedraw_pc : s.ackRedraw.pc = s.pc := by
  unfold ackRedraw ifLive; split <;> rfl
@[simp] theorem ackRedraw_i : s.ackRedraw.i = s.i := by
  unfold ackRedraw ifLive; split <;> rfl
@[simp] theorem ackRedraw_stack : s.ackRedraw.stack = s.stack := by
  unfold ackRedraw ifLive; split <;> rfl
@[simp] theorem ackRedraw_sp : s.ackRedraw.sp = s.sp := by
  unfold ackRedraw ifLive; split <;> rfl
@[simp] theorem ackRedraw_mem : s.ackRedraw.mem = s.mem := by
  unfold ackRedraw ifLive; split <;> rfl
@[simp] theorem ackRedraw_dt : s.ackRedraw.dt = s.dt := by
  unfold ackRedraw ifLive; split <;> rfl
@[simp] theorem ackRedraw_st : s.ackRedraw.st = s.st := by
  unfold ackRedraw ifLive; split <;> rfl
@[simp] theorem ackRedraw_disp : s.ackRedraw.disp = s.disp := by
  unfold ackRedraw ifLive; split <;> rfl
@[simp] theorem ackRedraw_key : s.ackRedraw.key = s.key := by
  unfold ackRedraw ifLive; split <;> rfl
@[simp] theorem ackRedraw_mode : s.ackRedraw.mode = s.mode := by
  unfold ackRedraw ifLive; split <;> rfl
@[simp] theorem ackRedraw_faultRecord : s.ackRedraw.faultRecord = s.faultRecord := by
  unfold ackRedraw ifLive; split <;> rfl
@[simp] theorem ackRedraw_needsRedraw :
    s.ackRedraw.needsRedraw = if s.mode.live then false else s.needsRedraw := by
  unfold ackRedraw ifLive; split <;> rfl
@[simp] theorem ackRedraw_keyLatch : s.ackRedraw.keyLatch = s.keyLatch := by
  unfold ackRedraw ifLive; split <;> rfl
@[simp] theorem ackRedraw_agenda : s.ackRedraw.agenda = s.agenda := by
  unfold ackRedraw ifLive; split <;> rfl
@[simp] theorem ackRedraw_draws : s.ackRedraw.draws = s.draws := by
  unfold ackRedraw ifLive; split <;> rfl

end Sys2Proof.Machine.State
end

