-- ==== Sys2Proof/Laws/Ops.lean ====
section
/-! SUPPORT. One lemma for each shared operation that says all it can do: registers, stack, fetch, commit, the core's turn. -/

namespace Sys2Proof.Machine

/-! ## Registers and flags -/

@[simp] theorem reg_setReg (s : State) (x r : Reg) (b : Byte) : (s.setReg x b).reg r = if r = x then b else s.reg r := by
  simp only [State.reg, State.setReg, Fin.getElem_fin, Vector.getElem_set, Fin.ext_iff]
  split_ifs <;> first | rfl | omega

theorem setReg_other (s : State) {x r : Reg} (b : Byte) (h : r ≠ x) : (s.setReg x b).reg r = s.reg r := by
  simp [h]

theorem v_get_eq_reg (s : State) (r : Reg) : s.v[r] = s.reg r := rfl

/-- Result first, flag last (R200): what each register holds afterwards. -/
theorem reg_setResultAndFlag (s : State) (x r : Reg) (b : Byte) (f : Bool) :
    (s.setResultAndFlag x b f).reg r = if r = 0xF then flagByte f else if r = x then b else s.reg r := by
  simp [State.setResultAndFlag, State.setFlag]

theorem setResultAndFlag_eq (s : State) (x : Reg) (b : Byte) (f : Bool) :
    s.setResultAndFlag x b f = { s with v := (s.setResultAndFlag x b f).v } := rfl

theorem flagByte_true : flagByte true = 1 := rfl
theorem flagByte_false : flagByte false = 0 := rfl

/-! ## V0 to Vx -/

theorem mem_regsUpTo (x r : Reg) : r ∈ regsUpTo x ↔ r ≤ x := by revert x r; decide

theorem regsUpTo_length (x : Reg) : (regsUpTo x).length = x.val + 1 := by revert x; decide

theorem regsUpTo_getElem? (x r : Reg) (h : r ≤ x) : (regsUpTo x)[r.val]? = some r := by
  revert x r; decide

theorem regsUpTo_nodup (x : Reg) : (regsUpTo x).Nodup := by revert x; decide

theorem reg_foldl_setReg (f : Reg → Byte) (rs : List Reg) (s : State) (r : Reg) :
    (rs.foldl (fun t q => t.setReg q (f q)) s).reg r = if r ∈ rs then f r else s.reg r := by
  induction rs generalizing s with
  | nil => simp
  | cons q rest ih =>
    simp only [List.foldl_cons, ih, reg_setReg, List.mem_cons]
    by_cases h : r ∈ rest
    · simp [h]
    · by_cases hq : r = q <;> simp [h, hq]

theorem foldl_setReg_eq (f : Reg → Byte) (rs : List Reg) (s : State) :
    rs.foldl (fun t q => t.setReg q (f q)) s
      = { s with v := (rs.foldl (fun t q => t.setReg q (f q)) s).v } := by
  induction rs generalizing s with
  | nil => rfl
  | cons q rest ih => rw [List.foldl_cons, ih]; rfl

/-- Load's writes (R225): V0 to Vx from memory, every other register as before. -/
theorem reg_loadRegs (s : State) (x r : Reg) :
    (loadRegs s x).reg r = if r ≤ x then s.mem.read (s.i.toNat + r.val) else s.reg r := by
  rw [loadRegs, reg_foldl_setReg]
  simp [mem_regsUpTo, State.indexAddr]

theorem loadRegs_eq (s : State) (x : Reg) : loadRegs s x = { s with v := (loadRegs s x).v } :=
  foldl_setReg_eq _ _ s

/-! ## Stack -/

theorem push_none_iff (s : State) (a : Word) : s.push a = none ↔ s.sp.val = 16 := by
  unfold State.push
  have := s.sp.isLt
  split_ifs with h <;> simp <;> omega

/-- R38: what a push does. -/
theorem push_some {s t : State} {a : Word} (h : s.push a = some t) :
    s.sp.val < 16 ∧ t.sp.val = s.sp.val + 1 ∧ t = { s with stack := t.stack, sp := t.sp } ∧
      ∀ k : Fin 16, t.stack[k] = if k.val = s.sp.val then a else s.stack[k] := by
  unfold State.push at h
  split_ifs at h with hs
  · obtain rfl := Option.some.inj h
    refine ⟨hs, rfl, rfl, fun k => ?_⟩
    simp only [Fin.getElem_fin, Vector.getElem_set]
    split_ifs <;> first | rfl | omega

theorem push_of_lt {s : State} (a : Word) (h : s.sp.val < 16) :
    s.push a = some { s with stack := s.stack.set s.sp.val a, sp := ⟨s.sp.val + 1, by omega⟩ } := by
  unfold State.push; rw [dif_pos h]

theorem pop_none_iff (s : State) : s.pop = none ↔ s.sp.val = 0 := by
  unfold State.pop
  split_ifs with h <;> simp <;> omega

/-- R39: what a pop does. -/
theorem pop_some {s t : State} {a : Word} (h : s.pop = some (a, t)) :
    0 < s.sp.val ∧ t.sp.val + 1 = s.sp.val ∧ t = { s with sp := t.sp } ∧
      ∃ hk : s.sp.val - 1 < 16, a = s.stack[s.sp.val - 1] := by
  unfold State.pop at h
  split_ifs at h with hs
  obtain ⟨rfl, rfl⟩ := Prod.mk.inj (Option.some.inj h)
  exact ⟨hs, by simp; omega, rfl, by omega, rfl⟩

/-! ## Memory operands -/

theorem rangeValid_iff (a n : Nat) : rangeValid a n = true ↔ n = 0 ∨ a + n ≤ 0x1000 := by
  simp [rangeValid, Config.maxAddr]

theorem rangeValid_succ (a n : Nat) : rangeValid a (n + 1) = true ↔ a + n ≤ 0xFFF := by
  rw [rangeValid_iff]; omega

theorem addrOperand_toNat (nnn : Addr12) : (addrOperand nnn).toNat = nnn.toNat := by
  simp [addrOperand, BitVec.toNat_setWidth]; omega

theorem addrOperand_le (nnn : Addr12) : (addrOperand nnn).toNat ≤ 0xFFF := by
  rw [addrOperand_toNat]; omega

theorem ofNat_toNat_addrOperand (nnn : Addr12) : BitVec.ofNat 16 (addrOperand nnn).toNat = addrOperand nnn := by
  simp

theorem keyOperand_eq_some {b : Byte} {k : Key} : keyOperand b = some k ↔ b.toNat = k.val := by
  unfold keyOperand
  split_ifs with h
  · simp [Fin.ext_iff]
  · simp; omega

theorem keyOperand_eq_none {b : Byte} : keyOperand b = none ↔ 0xF < b.toNat := by
  unfold keyOperand
  split_ifs with h <;> simp <;> omega

theorem glyphAddr_toNat (b : Byte) : (glyphAddr b).toNat = Config.fontBase.val + 5 * (b.toNat % 16) := by
  have h1 : (b &&& 0x0F).toNat = b.toNat % 16 := by
    rw [BitVec.toNat_and]; exact Nat.and_two_pow_sub_one_eq_mod b.toNat 4
  have := Config.fontBase.isLt
  rw [glyphAddr, h1, BitVec.toNat_ofNat]
  omega

/-- FontCharacter's result is below 0x200 (R41, R222). -/
theorem glyphAddr_lt (b : Byte) : (glyphAddr b).toNat < 0x200 := by
  rw [glyphAddr_toNat]; have := Config.fontBase.isLt; omega

theorem fontGlyphs_length : fontGlyphs.length = 80 := by decide

/-- The font table in a freshly loaded memory (R46, R320): byte `j` of glyph `d`. -/
theorem resetByte_font {k : Nat} (h : k < 80) : Memory.resetByte (Config.fontBase.val + k) = fontGlyphs.getD k 0 := by
  have := Config.fontBase.isLt
  rw [Memory.resetByte, if_neg (by simp only [Config.programBase]; omega), fontByte, if_pos (by omega)]
  congr 1; omega

/-- Outside the font table a freshly loaded memory is zero (R52, R320). -/
theorem resetByte_zero {a : Nat} (h : a < Config.fontBase.val ∨ Config.fontBase.val + 80 ≤ a) :
    Memory.resetByte a = 0 := by
  unfold Memory.resetByte fontByte
  split_ifs with h1 h2
  · rfl
  · have : fontGlyphs.length ≤ a - Config.fontBase.val := by rw [fontGlyphs_length]; omega
    rw [List.getD_eq_getElem?_getD, List.getElem?_eq_none this]; rfl
  · rfl

/-! ## Fetch -/

/-- R75: the big-endian word at PC. -/
theorem fetch_of_le {s : State} (h : s.pc.toNat + 1 ≤ 0xFFF) :
    s.fetch = some (wordOfBytes (s.mem.read s.pc.toNat) (s.mem.read (s.pc.toNat + 1))) := by
  unfold State.fetch; exact if_pos h

theorem fetch_none_iff (s : State) : s.fetch = none ↔ 0xFFF < s.pc.toNat + 1 := by
  unfold State.fetch Config.maxAddr; split_ifs <;> simp <;> omega

/-- A fetch reads PC and memory only. -/
theorem fetch_congr {s t : State} (hp : t.pc = s.pc) (hm : t.mem = s.mem) : t.fetch = s.fetch := by
  unfold State.fetch; rw [hp, hm]

/-! ## Commit (R36) -/

theorem commit_of_le {old new : State} {n : Nat} (h : n ≤ 0xFFF) :
    commit old new n = .next (new.setPc (BitVec.ofNat 16 n)) := if_pos h

theorem commit_of_gt {old new : State} {n : Nat} (h : 0xFFF < n) :
    commit old new n = .next (old.takeFault .memoryOutOfBounds (some (BitVec.ofNat 16 n))) :=
  if_neg (by simp only [Config.maxAddr]; omega)

/-- Everything a commit can do: the writes land with the next PC, or the fault entry is all. -/
theorem commit_cases {old new t : State} {n : Nat} (h : commit old new n = .next t) :
    (n ≤ 0xFFF ∧ t = new.setPc (BitVec.ofNat 16 n)) ∨
    (0xFFF < n ∧ t = old.takeFault .memoryOutOfBounds (some (BitVec.ofNat 16 n))) := by
  rcases Nat.lt_or_ge 0xFFF n with hn | hn
  · rw [commit_of_gt hn] at h; exact .inr ⟨hn, (Host.Outcome.next.inj h).symm⟩
  · rw [commit_of_le hn] at h; exact .inl ⟨hn, (Host.Outcome.next.inj h).symm⟩

theorem raiseOutOfBounds_eq (s : State) (a : Nat) :
    raiseOutOfBounds s a = .next (s.takeFault .memoryOutOfBounds (some (BitVec.ofNat 16 a))) := rfl

theorem ofNat_toNat_add (a : Word) (k : Nat) : BitVec.ofNat 16 (a.toNat + k) = a + BitVec.ofNat 16 k := by
  apply BitVec.eq_of_toNat_eq; simp

/-! ## The next step (R83) -/

theorem step_eq (s : State) : step s = agentStep s.turn s.dequeue := rfl

theorem turn_nil {s : State} (h : s.agenda = []) : s.turn = .core := by simp [State.turn, h]

theorem turn_cons {s : State} {e : AgentStep} {rest : List AgentStep} (h : s.agenda = e :: rest) : s.turn = e := by
  simp [State.turn, h]

theorem dequeue_nil {s : State} (h : s.agenda = []) : s.dequeue = s := by
  cases s; simp only at h; subst h; rfl

theorem coreTurn_running {s : State} (h : s.mode = .running) : coreTurn s = runInstruction s := by
  simp [coreTurn, h]

theorem runInstruction_of_decode {s : State} {w : Word} {i : Instr} (hf : s.fetch = some w) (hd : decode w = .ok i) :
    runInstruction s = exec i s := by
  simp [runInstruction, hf, hd]

/-- Everything the core can do in mode Running: a fetch fault, an illegal word, or one instruction. -/
theorem runInstruction_cases (s : State) :
    (s.fetch = none ∧ runInstruction s = raiseOutOfBounds s (s.pc.toNat + 1)) ∨
    (∃ w e, s.fetch = some w ∧ decode w = .error e ∧
      runInstruction s = raise s .unrecognizedInstruction (some w)) ∨
    (∃ w i, s.fetch = some w ∧ decode w = .ok i ∧ runInstruction s = exec i s) := by
  rcases hf : s.fetch with _ | w
  · exact .inl ⟨rfl, by simp [runInstruction, hf]⟩
  · rcases hd : decode w with e | i
    · exact .inr (.inl ⟨w, e, rfl, hd, by simp [runInstruction, hf, hd]⟩)
    · exact .inr (.inr ⟨w, i, rfl, hd, runInstruction_of_decode hf hd⟩)

end Sys2Proof.Machine
end

