-- ==== Sys2Proof/Laws/Agents.lean ====
section
/-! SUPPORT. One lemma for each step of the timer and the host that says all it does (60_exceptions.md R288, R295, R300 to
R305, 70_reset_and_hazards.md R320, R321), and whose step comes next. -/

namespace Sys2Proof.Machine

/-- The step of the agent first in the agenda. -/
theorem step_cons {s : State} {e : AgentStep} {rest : List AgentStep} (h : s.agenda = e :: rest) :
    step s = agentStep e { s with agenda := rest } := by
  rw [step_eq, turn_cons h]; simp [State.dequeue, h]

/-- The core's step, when the agenda is empty or the core is first in it. -/
theorem step_core {s : State} (h : s.agenda.headD .core = .core) :
    step s = coreTurn { s with agenda := s.agenda.tail } := by
  rw [step_eq, State.turn, h]; rfl

/-- R42, R295: a timer counts toward 0 and stays there. -/
theorem countDown_toNat (b : Byte) : (countDown b).toNat = b.toNat - 1 := by
  unfold countDown
  split_ifs with h
  · subst h; rfl
  · have : b.toNat ≠ 0 := fun h' => h (BitVec.eq_of_toNat_eq (by simpa using h'))
    bv_omega

/-- A step of the timer or the host other than a load in Running or AwaitingKey. -/
theorem ifLive_live {s : State} (next : State) (h : s.mode.live = true) : s.ifLive next = next := if_pos h

/-- The same in Halted or Stopped (R288, I16). -/
theorem ifLive_terminal {s : State} (next : State) (h : s.mode.live = false) : s.ifLive next = s := if_neg (by simp [h])

/-- A tick in Running or AwaitingKey (R295). -/
theorem tick_live {s : State} (h : s.mode.live = true) :
    s.tick = { s with dt := countDown s.dt, st := countDown s.st } := ifLive_live _ h

/-- A tick in Halted or Stopped (R288). -/
theorem tick_terminal {s : State} (h : s.mode.live = false) : s.tick = s := ifLive_terminal _ h

/-- The latch changes on the first press of a wait only (R267, R300). -/
theorem latchAfter_wait {s : State} {x : Reg} (k : Key) (hm : s.mode = .awaitingKey x) (hl : s.keyLatch = none) :
    s.latchAfter k = some k := by simp [State.latchAfter, hm, hl]

theorem latchAfter_other {s : State} (k : Key) (h : (∀ x, s.mode ≠ .awaitingKey x) ∨ s.keyLatch ≠ none) :
    s.latchAfter k = s.keyLatch := by
  unfold State.latchAfter
  split
  · rename_i x hm hl
    exact h.elim (fun h => absurd hm (h x)) (fun h => absurd hl h)
  · rfl

/-- KeyDown of a pressed key, in any mode (R300). -/
theorem keyDown_pressed {s : State} {k : Key} (h : s.key[k] = true) : s.keyDown k = s := by
  simp [State.keyDown, State.ifLive, h]

/-- KeyDown of a released key in Running or AwaitingKey (R300). -/
theorem keyDown_released {s : State} {k : Key} (hl : s.mode.live = true) (h : s.key[k] = false) :
    s.keyDown k = { s with key := s.key.set k true, keyLatch := s.latchAfter k } :=
  (ifLive_live _ hl).trans (if_neg (by simp [h]))

/-- KeyDown in Halted or Stopped (R288, I16). -/
theorem keyDown_terminal {s : State} (k : Key) (h : s.mode.live = false) : s.keyDown k = s := ifLive_terminal _ h

/-- KeyUp in Running or AwaitingKey (R300). -/
theorem keyUp_live {s : State} (k : Key) (h : s.mode.live = true) : s.keyUp k = { s with key := s.key.set k false } :=
  ifLive_live _ h

/-- KeyUp in Halted or Stopped (R288, I16). -/
theorem keyUp_terminal {s : State} (k : Key) (h : s.mode.live = false) : s.keyUp k = s := ifLive_terminal _ h

/-- AckRedraw in Running or AwaitingKey (R303). -/
theorem ackRedraw_live {s : State} (h : s.mode.live = true) : s.ackRedraw = { s with needsRedraw := false } := ifLive_live _ h

/-- AckRedraw in Halted or Stopped (R288, I16). -/
theorem ackRedraw_terminal {s : State} (h : s.mode.live = false) : s.ackRedraw = s := ifLive_terminal _ h

/-- Stop in Running or AwaitingKey (R304). -/
theorem stop_live {s : State} (h : s.mode.live = true) : s.stop = { s with mode := .stopped, keyLatch := none } :=
  ifLive_live _ h

/-- Stop in Halted or Stopped (R304). -/
theorem stop_terminal {s : State} (h : s.mode.live = false) : s.stop = s := ifLive_terminal _ h

/-- A ROM that fits (R320). -/
theorem loadRom_fits (s : State) {rom : List Byte} (h : rom.length ≤ 3584) :
    s.loadRom rom = { s.reinitialise with mem := Memory.ofBytes 0x200 rom } := if_pos h

/-- A ROM that does not fit (R321). -/
theorem loadRom_tooLarge (s : State) {rom : List Byte} (h : 3584 < rom.length) :
    s.loadRom rom = { s.reinitialise with
      mode := .halted .romTooLarge
      faultRecord := some
        { kind := .romTooLarge, pc := 0x200, word := none, value := some (romLengthValue rom.length) } } :=
  if_neg (Nat.not_le.2 h)

theorem romLengthValue_toNat {n : Nat} (h : n < 65536) : (romLengthValue n).toNat = n := by
  simp [romLengthValue, h]

end Sys2Proof.Machine
end

