-- ==== Sys2Proof/Laws/Decode.lean ====
section
/-! SUPPORT. The fields of the words the encoder builds, and the bytes of a word (30_encoding.md R102, R103). -/

namespace Sys2Proof

theorem fieldA_wordFA (op : BitVec 4) (a : Addr12) : fieldA (wordFA op a) = op := by
  ext i hi
  simp [fieldA, wordFA]
  grind

theorem fieldNNN_wordFA (op : BitVec 4) (a : Addr12) : fieldNNN (wordFA op a) = a := by
  ext i hi
  simp [fieldNNN, wordFA]
  grind

theorem fieldA_wordFXB (op : BitVec 4) (x : Reg) (nn : Byte) : fieldA (wordFXB op x nn) = op := by
  ext i hi
  simp [fieldA, wordFXB]
  grind

theorem fieldX_wordFXB (op : BitVec 4) (x : Reg) (nn : Byte) : fieldX (wordFXB op x nn) = x := by
  have : (wordFXB op x nn).extractLsb' 8 4 = regBits x := by
    ext i hi
    simp [wordFXB]
    grind
  simp [fieldX, this, regBits]

theorem fieldNN_wordFXB (op : BitVec 4) (x : Reg) (nn : Byte) : fieldNN (wordFXB op x nn) = nn := by
  ext i hi
  simp [fieldNN, wordFXB]
  grind

theorem fieldA_wordFXYN (op : BitVec 4) (x y : Reg) (n : BitVec 4) : fieldA (wordFXYN op x y n) = op := by
  ext i hi
  simp [fieldA, wordFXYN]
  grind

theorem fieldX_wordFXYN (op : BitVec 4) (x y : Reg) (n : BitVec 4) : fieldX (wordFXYN op x y n) = x := by
  have : (wordFXYN op x y n).extractLsb' 8 4 = regBits x := by
    ext i hi
    simp [wordFXYN]
    grind
  simp [fieldX, this, regBits]

theorem fieldY_wordFXYN (op : BitVec 4) (x y : Reg) (n : BitVec 4) : fieldY (wordFXYN op x y n) = y := by
  have : (wordFXYN op x y n).extractLsb' 4 4 = regBits y := by
    ext i hi
    simp [wordFXYN]
    grind
  simp [fieldY, this, regBits]

theorem subOpN_wordFXYN (op : BitVec 4) (x y : Reg) (n : BitVec 4) : subOpN (wordFXYN op x y n) = n := by
  ext i hi
  simp [subOpN, wordFXYN]
  grind

theorem fieldN_wordFXYN (op : BitVec 4) (x y : Reg) (n : Height) : fieldN (wordFXYN op x y (regBits n)) = n := by
  have h : (wordFXYN op x y (regBits n)).extractLsb' 0 4 = regBits n := subOpN_wordFXYN op x y (regBits n)
  rw [fieldN, h]; rfl

/-! ## Fields as quotients and remainders (R102) -/

theorem fieldA_toNat (w : Word) : (fieldA w).toNat = w.toNat / 4096 := by
  simp [fieldA, Nat.shiftRight_eq_div_pow]; omega

theorem fieldX_val (w : Word) : (fieldX w).val = w.toNat / 256 % 16 := by
  simp [fieldX, Nat.shiftRight_eq_div_pow]

theorem fieldY_val (w : Word) : (fieldY w).val = w.toNat / 16 % 16 := by
  simp [fieldY, Nat.shiftRight_eq_div_pow]

theorem fieldN_val (w : Word) : (fieldN w).val = w.toNat % 16 := by
  simp [fieldN]

theorem subOpN_toNat (w : Word) : (subOpN w).toNat = w.toNat % 16 := by
  simp [subOpN]

theorem fieldNN_toNat (w : Word) : (fieldNN w).toNat = w.toNat % 256 := by
  simp [fieldNN]

theorem fieldNNN_toNat (w : Word) : (fieldNNN w).toNat = w.toNat % 4096 := by
  simp [fieldNNN]

theorem wordOfBytes_toNat (hi lo : Byte) : (wordOfBytes hi lo).toNat = hi.toNat * 256 + lo.toNat := by
  rw [wordOfBytes, BitVec.toNat_append, ← Nat.shiftLeft_add_eq_or_of_lt lo.isLt, Nat.shiftLeft_eq]

theorem highByte_toNat (w : Word) : (highByte w).toNat = w.toNat / 256 := by
  simp [highByte, Nat.shiftRight_eq_div_pow]; omega

theorem lowByte_toNat (w : Word) : (lowByte w).toNat = w.toNat % 256 := by
  simp [lowByte]

/-- The two bytes of a word make the word (R74, R101). -/
theorem wordOfBytes_high_low (w : Word) : wordOfBytes (highByte w) (lowByte w) = w := by
  apply BitVec.eq_of_toNat_eq
  rw [wordOfBytes_toNat, highByte_toNat, lowByte_toNat]; omega

/-- A decoder of words decides the decoder of bytes. -/
theorem decodeBytes_of_word (w : Word) (rest : List Byte) :
    decodeBytes (highByte w :: lowByte w :: rest) = (decode w).map fun i => (i, rest) := by
  rw [decodeBytes, wordOfBytes_high_low]

/-! ## Well-formedness -/

theorem fitsField_reg (x : Reg) : fitsField 4 x.val = true := by simp [fitsField]

theorem fitsField_bits {n : Nat} (b : BitVec n) : fitsField n b.toNat = true := by simpa [fitsField] using b.isLt

/-- No operand can leave its field (R32, R105). -/
theorem Laws.wellFormed_all (i : Instr) : i.wellFormed = true := by
  cases i <;> simp [Instr.wellFormed, Instr.operands, fitsField_reg, fitsField_bits]

end Sys2Proof
end

