-- ==== Sys2Proof/Laws/Display.lean ====
section
/-! SUPPORT. What drawing does, pixel by pixel: one pixel, one row byte, one sprite row, the sprite (45_display.md R240 to
R243). -/

namespace Sys2Proof.Machine

/-- One lit pixel: it is inverted, no other pixel changes, and an on pixel is a collision. -/
theorem flip_disp (d : Canvas) (row r : Fin 32) (col c : Fin 64) :
    (d.flip row col).disp[r][c] = (d.disp[r][c] ^^ (decide (row = r) && decide (col = c))) := by
  simp only [Canvas.flip, Fin.getElem_fin, Vector.getElem_set, Fin.ext_iff]
  by_cases hr : row.val = r.val
  · simp only [hr, if_true, decide_true, Bool.true_and, Vector.getElem_set]
    by_cases hc : col.val = c.val <;> simp [hc]
  · simp [hr]

theorem flip_collision (d : Canvas) (row : Fin 32) (col : Fin 64) :
    (d.flip row col).collision = true ↔ d.collision = true ∨ d.disp[row][col] = true := by
  simp [Canvas.flip]

/-- The sprite column that lands on screen column `c` (R242). -/
theorem wrapColumn_eq_iff {x0 k : Nat} (c : Fin 64) (hx : x0 < 64) (hk : k < 8) :
    wrapColumn x0 k = c ↔ (c.val + 64 - x0) % 64 = k := by
  have := c.isLt
  simp only [wrapColumn, Fin.ext_iff]
  omega

/-- Pixel (r, c) is lit by the row byte `b` drawn at column `x0` of row `row`, `k` columns being drawn. -/
def byteLit (b : Byte) (x0 : Nat) (row : Fin 32) (k : Nat) (r : Fin 32) (c : Fin 64) : Bool :=
  decide (row = r) && decide ((c.val + 64 - x0) % 64 < k) && b.getLsbD (7 - (c.val + 64 - x0) % 64)

theorem drawPixel_set {b : Byte} {x0 : Nat} {row : Fin 32} {d : Canvas} {k : Nat} (h : b.getLsbD (7 - k) = true) :
    Canvas.drawPixel b x0 row d k = d.flip row (wrapColumn x0 k) := if_pos h

theorem drawPixel_clear {b : Byte} {x0 : Nat} {row : Fin 32} {d : Canvas} {k : Nat} (h : ¬ b.getLsbD (7 - k) = true) :
    Canvas.drawPixel b x0 row d k = d := if_neg h

/-- The first `k` pixels of a row byte. -/
theorem drawPixels (b : Byte) {x0 : Nat} (hx : x0 < 64) (row : Fin 32) (d : Canvas) (k : Nat) (hk : k ≤ 8) :
    (∀ (r : Fin 32) (c : Fin 64), ((List.range k).foldl (Canvas.drawPixel b x0 row) d).disp[r][c]
        = (d.disp[r][c] ^^ byteLit b x0 row k r c)) ∧
    (((List.range k).foldl (Canvas.drawPixel b x0 row) d).collision = true ↔ d.collision = true ∨
      ∃ (r : Fin 32) (c : Fin 64), d.disp[r][c] = true ∧ byteLit b x0 row k r c = true) := by
  induction k with
  | zero => simp [byteLit]
  | succ k ih =>
    obtain ⟨hd, hcol⟩ := ih (by omega)
    have hfold : (List.range (k + 1)).foldl (Canvas.drawPixel b x0 row) d
        = Canvas.drawPixel b x0 row ((List.range k).foldl (Canvas.drawPixel b x0 row) d) k := by
      rw [List.range_succ, List.foldl_append]; rfl
    rw [hfold]
    generalize (List.range k).foldl (Canvas.drawPixel b x0 row) d = e at hd hcol
    by_cases hb : b.getLsbD (7 - k) = true
    · rw [drawPixel_set hb]
      have hlit : ∀ (r : Fin 32) (c : Fin 64), byteLit b x0 row (k + 1) r c
          = (byteLit b x0 row k r c ^^ (decide (row = r) && decide (wrapColumn x0 k = c))) := by
        intro r c
        have hw := wrapColumn_eq_iff c hx (show k < 8 by omega)
        simp only [byteLit, hw]
        by_cases hrow : row = r
        · by_cases hk' : (c.val + 64 - x0) % 64 = k
          · simp [hrow, hk', hb]
          · have : ((c.val + 64 - x0) % 64 < k + 1) = ((c.val + 64 - x0) % 64 < k) := by
              apply propext; omega
            simp [hrow, hk', this]
        · simp [hrow]
      constructor
      · intro r c
        rw [flip_disp, hd, hlit, Bool.xor_assoc]
      · rw [flip_collision, hd, hcol]
        have hnot : byteLit b x0 row k row (wrapColumn x0 k) = false := by
          have := (wrapColumn_eq_iff (wrapColumn x0 k) hx (show k < 8 by omega)).1 rfl
          simp [byteLit, this]
        rw [hnot, Bool.xor_false]
        constructor
        · rintro ((h | ⟨r, c, h1, h2⟩) | h)
          · exact .inl h
          · refine .inr ⟨r, c, h1, ?_⟩
            rw [hlit, h2]
            by_cases hw : row = r ∧ wrapColumn x0 k = c
            · rw [← hw.1, ← hw.2, hnot] at h2; simp at h2
            · have : (decide (row = r) && decide (wrapColumn x0 k = c)) = false := by
                simpa [Bool.and_eq_true] using fun h => fun h' => hw ⟨h, h'⟩
              rw [this]; rfl
          · exact .inr ⟨row, _, h, by rw [hlit, hnot]; simp⟩
        · rintro (h | ⟨r, c, h1, h2⟩)
          · exact .inl (.inl h)
          · rw [hlit] at h2
            by_cases hw : row = r ∧ wrapColumn x0 k = c
            · right; rw [hw.1, hw.2]; exact h1
            · have : (decide (row = r) && decide (wrapColumn x0 k = c)) = false := by
                simpa [Bool.and_eq_true] using fun h => fun h' => hw ⟨h, h'⟩
              rw [this, Bool.xor_false] at h2
              exact .inl (.inr ⟨r, c, h1, h2⟩)
    · rw [drawPixel_clear hb]
      have hlit : ∀ (r : Fin 32) (c : Fin 64), byteLit b x0 row (k + 1) r c = byteLit b x0 row k r c := by
        intro r c
        simp only [byteLit]
        by_cases hk' : (c.val + 64 - x0) % 64 = k
        · simp [hk', hb]
        · have : ((c.val + 64 - x0) % 64 < k + 1) = ((c.val + 64 - x0) % 64 < k) := by
            apply propext; omega
          simp [this]
      simp only [hlit]
      exact ⟨hd, hcol⟩

/-- Drawing one row byte XORs its eight pixels onto the row (R240, R241, R242). -/
theorem drawByte_disp (d : Canvas) (b : Byte) {x0 : Nat} (hx : x0 < 64) (row r : Fin 32) (c : Fin 64) :
    (d.drawByte b x0 row).disp[r][c] = (d.disp[r][c] ^^ byteLit b x0 row 8 r c) :=
  (drawPixels b hx row d 8 (by omega)).1 r c

theorem drawByte_collision (d : Canvas) (b : Byte) {x0 : Nat} (hx : x0 < 64) (row : Fin 32) :
    (d.drawByte b x0 row).collision = true ↔ d.collision = true ∨
      ∃ (r : Fin 32) (c : Fin 64), d.disp[r][c] = true ∧ byteLit b x0 row 8 r c = true :=
  (drawPixels b hx row d 8 (by omega)).2

/-- Pixel (r, c) is lit by sprite row `n` alone. -/
def rowLit (s : State) (x0 y0 n : Nat) (r : Fin 32) (c : Fin 64) : Bool :=
  if h : y0 + n < 32 then byteLit (s.mem.read (s.indexAddr n)) x0 ⟨y0 + n, h⟩ 8 r c else false

theorem drawRow_disp (s : State) {x0 : Nat} (hx : x0 < 64) (y0 : Nat) (d : Canvas) (n : Nat) (r : Fin 32) (c : Fin 64) :
    (drawRow s x0 y0 d n).disp[r][c] = (d.disp[r][c] ^^ rowLit s x0 y0 n r c) := by
  unfold drawRow rowLit
  split_ifs with h
  · exact drawByte_disp d _ hx _ r c
  · simp

theorem drawRow_collision (s : State) {x0 : Nat} (hx : x0 < 64) (y0 : Nat) (d : Canvas) (n : Nat) :
    (drawRow s x0 y0 d n).collision = true ↔ d.collision = true ∨
      ∃ (r : Fin 32) (c : Fin 64), d.disp[r][c] = true ∧ rowLit s x0 y0 n r c = true := by
  unfold drawRow rowLit
  split_ifs with h
  · exact drawByte_collision d _ hx _
  · simp

/-- A sprite of `n + 1` rows lights what its first `n` rows light and what row `n` lights, and no pixel twice. -/
theorem spriteLit_succ (s : State) (x0 y0 n : Nat) (r : Fin 32) (c : Fin 64) :
    spriteLit s x0 y0 (n + 1) r c = (spriteLit s x0 y0 n r c || rowLit s x0 y0 n r c) ∧
      (spriteLit s x0 y0 n r c && rowLit s x0 y0 n r c) = false := by
  have hr := r.isLt
  by_cases hn : r.val = y0 + n
  · have h32 : y0 + n < 32 := by omega
    have hrow : (⟨y0 + n, h32⟩ : Fin 32) = r := Fin.ext hn.symm
    have hsub : r.val - y0 = n := by omega
    have hle : y0 ≤ r.val := by omega
    simp [spriteLit, rowLit, byteLit, h32, hrow, hsub, hle, State.indexAddr]
  · have hrow : rowLit s x0 y0 n r c = false := by
      unfold rowLit
      split_ifs with h
      · have : (⟨y0 + n, h⟩ : Fin 32) ≠ r := fun e => hn (congrArg Fin.val e).symm
        simp [byteLit, this]
      · rfl
    rw [hrow]
    refine ⟨?_, by simp⟩
    rw [Bool.or_false]
    unfold spriteLit
    by_cases hle : y0 ≤ r.val
    · have : (r.val - y0 < n + 1) = (r.val - y0 < n) := by apply propext; omega
      simp [this]
    · simp [hle]

/-- Drawing a sprite XORs it onto the buffer, and reports whether it turned a pixel off (R240 to R243). -/
theorem drawSprite_spec (s : State) {x0 : Nat} (hx : x0 < 64) (y0 n : Nat) :
    (∀ (r : Fin 32) (c : Fin 64), (drawSprite s x0 y0 n).disp[r][c] = (s.disp[r][c] ^^ spriteLit s x0 y0 n r c)) ∧
    ((drawSprite s x0 y0 n).collision = true ↔
      ∃ (r : Fin 32) (c : Fin 64), s.disp[r][c] = true ∧ spriteLit s x0 y0 n r c = true) := by
  induction n with
  | zero => simp [drawSprite, spriteLit]
  | succ n ih =>
    have hstep : drawSprite s x0 y0 (n + 1) = drawRow s x0 y0 (drawSprite s x0 y0 n) n := by
      rw [drawSprite, List.range_succ, List.foldl_append]; rfl
    obtain ⟨hd, hcol⟩ := ih
    rw [hstep]
    constructor
    · intro r c
      obtain ⟨h1, h2⟩ := spriteLit_succ s x0 y0 n r c
      rw [drawRow_disp s hx, hd, h1]
      cases ha : spriteLit s x0 y0 n r c <;> cases hb : rowLit s x0 y0 n r c <;> simp_all
    · rw [drawRow_collision s hx, hcol]
      constructor
      · rintro (⟨r, c, h1, h2⟩ | ⟨r, c, h1, h2⟩)
        · exact ⟨r, c, h1, by rw [(spriteLit_succ s x0 y0 n r c).1, h2]; rfl⟩
        · refine ⟨r, c, ?_, by rw [(spriteLit_succ s x0 y0 n r c).1, h2, Bool.or_true]⟩
          have := (spriteLit_succ s x0 y0 n r c).2
          rw [h2, Bool.and_true] at this
          rwa [hd, this, Bool.xor_false] at h1
      · rintro ⟨r, c, h1, h2⟩
        obtain ⟨e1, e2⟩ := spriteLit_succ s x0 y0 n r c
        rw [e1] at h2
        cases ha : spriteLit s x0 y0 n r c
        · rw [ha, Bool.false_or] at h2
          exact .inr ⟨r, c, by rw [hd, ha, Bool.xor_false]; exact h1, h2⟩
        · exact .inl ⟨r, c, h1, ha⟩

/-- R240, R244: the sprite drawn again onto the buffer it left. The collision flag is set exactly when the sprite lights a
pixel that was off before the first draw (log 25). -/
theorem drawSprite_again {s u : State} {x0 : Nat} (hx : x0 < 64) (y0 n : Nat)
    (hdisp : u.disp = (drawSprite s x0 y0 n).disp)
    (hlit : ∀ (r : Fin 32) (c : Fin 64), spriteLit u x0 y0 n r c = spriteLit s x0 y0 n r c) :
    (∀ (r : Fin 32) (c : Fin 64), (drawSprite u x0 y0 n).disp[r][c] = s.disp[r][c]) ∧
    ((drawSprite u x0 y0 n).collision = true ↔
      ∃ (r : Fin 32) (c : Fin 64), s.disp[r][c] = false ∧ spriteLit s x0 y0 n r c = true) := by
  have hu : ∀ (r : Fin 32) (c : Fin 64), u.disp[r][c] = (s.disp[r][c] ^^ spriteLit s x0 y0 n r c) := by
    intro r c
    rw [hdisp]
    exact (drawSprite_spec s hx y0 n).1 r c
  obtain ⟨hd, hc⟩ := drawSprite_spec u hx y0 n
  constructor
  · intro r c
    rw [hd, hu, hlit, Bool.xor_assoc, Bool.xor_self, Bool.xor_false]
  · rw [hc]
    refine exists_congr fun r => exists_congr fun c => ?_
    rw [hu, hlit]
    cases s.disp[r][c] <;> cases spriteLit s x0 y0 n r c <;> decide

/-- R244 where it follows from R240: when every pixel the sprite lights was off before the first draw, the second draw's
collision flag is set exactly when the sprite lights a pixel. -/
theorem drawSprite_again_of_off {s u : State} {x0 : Nat} (hx : x0 < 64) (y0 n : Nat)
    (hdisp : u.disp = (drawSprite s x0 y0 n).disp)
    (hlit : ∀ (r : Fin 32) (c : Fin 64), spriteLit u x0 y0 n r c = spriteLit s x0 y0 n r c)
    (hoff : ∀ (r : Fin 32) (c : Fin 64), spriteLit s x0 y0 n r c = true → s.disp[r][c] = false) :
    (drawSprite u x0 y0 n).collision = true ↔ ∃ (r : Fin 32) (c : Fin 64), spriteLit s x0 y0 n r c = true := by
  rw [(drawSprite_again hx y0 n hdisp hlit).2]
  exact exists_congr fun r => exists_congr fun c => ⟨fun h => h.2, fun h => ⟨hoff r c h, h⟩⟩

end Sys2Proof.Machine
end

