-- ==== Sys2Proof/Laws/Shapes.lean ====
section
/-! SUPPORT. The shapes of Safety.lean from the commits of Ops.lean: an instruction whose meaning is a commit has its shape. -/

namespace Sys2Proof.Machine

theorem commitNext_of_le {old new : State} (h : old.pc.toNat + 2 ≤ 0xFFF) :
    commitNext old new = .next { new with pc := BitVec.ofNat 16 (old.pc.toNat + 2) } := commit_of_le h

theorem commitNext_of_gt {old new : State} (h : 0xFFF < old.pc.toNat + 2) :
    commitNext old new = .next (old.outOfBounds (old.pc.toNat + 2)) := commit_of_gt h

/-- A meaning that is `commitNext` is a sequential instruction. -/
theorem sequential_of_commitNext {i : Instr} {s new : State} (h : exec i s = commitNext s new) : Sequential i s new :=
  ⟨fun hle => by rw [h, commitNext_of_le hle], fun hgt => by rw [h, commitNext_of_gt hgt]⟩

/-- A meaning that is `commitSkip` is a skip. -/
theorem skips_of_commitSkip {i : Instr} {s : State} {b : Bool} {cond : Prop} (h : exec i s = commitSkip s b)
    (hb : b = true ↔ cond) : Skips i s cond := by
  constructor
  · intro hc
    rw [h, commitSkip, if_pos (hb.2 hc)]
    exact ⟨fun hle => commit_of_le hle, fun hgt => commit_of_gt hgt⟩
  · intro hc
    rw [h, commitSkip, if_neg (fun hh => hc (hb.1 hh))]
    exact ⟨fun hle => commit_of_le hle, fun hgt => commit_of_gt hgt⟩

/-- A meaning that commits a result and then a flag is a flag operation. -/
theorem flagOperation_of_commit {i : Instr} {s : State} {x : Reg} {b : Byte} {f : Bool} {result : Nat} {flag : Prop}
    (h : exec i s = commitNext s (s.setResultAndFlag x b f)) (hr : b.toNat = result) (hf : f = true ↔ flag) :
    FlagOperation i s x result flag := by
  refine ⟨fun hle => ⟨{ s.setResultAndFlag x b f with pc := BitVec.ofNat 16 (s.pc.toNat + 2) },
    by rw [h, commitNext_of_le hle], ?_, ?_, ?_, ?_, fun a => rfl, rfl⟩, fun hgt => ?_⟩
  · intro hflag
    have := reg_setResultAndFlag s x 0xF b f
    rw [if_pos rfl] at this
    exact this.trans (by rw [hf.2 hflag]; rfl)
  · intro hflag
    have := reg_setResultAndFlag s x 0xF b f
    have hf' : f = false := by simpa using fun hh => hflag (hf.1 hh)
    rw [if_pos rfl] at this
    exact this.trans (by rw [hf']; rfl)
  · intro hx
    have := reg_setResultAndFlag s x x b f
    rw [if_neg hx, if_pos rfl] at this
    exact (congrArg BitVec.toNat this).trans hr
  · intro r hrx hrf
    have := reg_setResultAndFlag s x r b f
    rw [if_neg hrf, if_neg hrx] at this
    exact this
  · rw [h, commitNext_of_gt hgt]

/-- Everything a sequential commit can do. -/
theorem commitNext_cases {old new t : State} (h : commitNext old new = .next t) :
    (old.pc.toNat + 2 ≤ 0xFFF ∧ t = new.setPc (BitVec.ofNat 16 (old.pc.toNat + 2))) ∨
    (0xFFF < old.pc.toNat + 2 ∧ t = old.outOfBounds (old.pc.toNat + 2)) := commit_cases h

end Sys2Proof.Machine
end

