-- ==== Sys2Proof/Laws/Exec.lean ====
section
/-! SUPPORT. Everything an instruction can do, said once: it takes a fault, suspends the core, or commits its writes with its
next PC. Claims about all instructions start from `exec_cases`. -/

namespace Sys2Proof.Machine

/-- `new` is `s` with the writes of `i` and not yet its next PC; the operation's own check has passed. -/
def Writes (i : Instr) (s new : State) : Prop :=
  match i with
  | .clearScreen => new = s.setScreen blankScreen
  | .ret => ∃ a, s.pop = some (a, new)
  | .callSubroutine _ => s.push (BitVec.ofNat 16 (s.pc.toNat + 2)) = some new
  | .set x nn => new = s.setReg x nn
  | .add x nn => new = s.setReg x (s.reg x + nn)
  | .setRegister x y => new = s.setReg x (s.reg y)
  | .orRegister x y => new = s.setReg x (s.reg x ||| s.reg y)
  | .andRegister x y => new = s.setReg x (s.reg x &&& s.reg y)
  | .xorRegister x y => new = s.setReg x (s.reg x ^^^ s.reg y)
  | .addRegister x y => new = s.setResultAndFlag x (s.reg x + s.reg y) (carryOut (s.reg x) (s.reg y))
  | .subtractYFromX x y => new = s.setResultAndFlag x (s.reg x - s.reg y) (noBorrow (s.reg x) (s.reg y))
  | .subtractXFromY x y => new = s.setResultAndFlag x (s.reg y - s.reg x) (noBorrow (s.reg y) (s.reg x))
  | .shiftRight x y => new = s.setResultAndFlag x (s.reg y >>> 1) (shiftedOutLow (s.reg y))
  | .shiftLeft x y => new = s.setResultAndFlag x (s.reg y <<< 1) (shiftedOutHigh (s.reg y))
  | .setIndex nnn => new = s.setI (addrOperand nnn)
  | .addToIndex x => s.indexSum x ≤ 0xFFF ∧ new = s.setI (BitVec.ofNat 16 (s.indexSum x))
  | .fontCharacter x => new = s.setI (glyphAddr (s.reg x))
  | .decimalConversion x => s.i.toNat + 2 ≤ 0xFFF ∧ new = s.setMem (s.mem.writeList s.i.toNat (decimalDigits (s.reg x)))
  | .store x => s.i.toNat + x.val ≤ 0xFFF ∧ new = s.setMem (s.mem.writeList s.i.toNat ((regsUpTo x).map s.reg))
  | .load x => s.i.toNat + x.val ≤ 0xFFF ∧ new = loadRegs s x
  | .display x y n => ∃ out, out = drawSprite s (spriteColumn (s.reg x)) (spriteRow (s.reg y)) n.val ∧
      new = (s.setScreen out.disp).setFlag out.collision
  | .setRegisterDelayTimer x => new = s.setReg x s.dt
  | .setDelayTimer x => new = s.setDelay (s.reg x)
  | .setSoundTimer x => new = s.setSound (s.reg x)
  | .random x nn => new = (s.setReg x (s.drawByte &&& nn)).countDraw
  | .getKey _ => False
  | .jump _ | .jumpWithOffset _ | .skipEqual _ _ | .skipNotEqual _ _ | .skipRegisterEqual _ _
  | .skipRegisterNotEqual _ _ | .skipIfPressed _ | .skipIfNotPressed _ => new = s

/-- The fault kinds an operation can raise, with the condition of its own check (R280). -/
def Raises (i : Instr) (s : State) (k : FaultKind) : Prop :=
  k = .memoryOutOfBounds ∨
  (k = .stackOverflow ∧ (∃ nnn, i = .callSubroutine nnn) ∧ s.sp.val = 16) ∨
  (k = .stackUnderflow ∧ i = .ret ∧ s.sp.val = 0) ∨
  (k = .invalidKeyIndex ∧ ∃ x, (i = .skipIfPressed x ∨ i = .skipIfNotPressed x) ∧ 0x0F < (s.reg x).toNat)

/-- `t` is what `i` can leave behind at `s`. -/
def Outcomes (i : Instr) (s t : State) : Prop :=
  (∃ k value, Raises i s k ∧ t = s.takeFault k value) ∨
  (∃ x, i = .getKey x ∧ t = s.enterWait x) ∨
  (∃ new n, n ≤ 0xFFF ∧ t = new.setPc (BitVec.ofNat 16 n) ∧ Writes i s new)

theorem outcomes_of_commit {i : Instr} {s new : State} {n : Nat} (hw : Writes i s new) :
    ∃ t, commit s new n = .next t ∧ Outcomes i s t := by
  rcases Nat.lt_or_ge 0xFFF n with h | h
  · exact ⟨_, commit_of_gt h, .inl ⟨_, _, .inl rfl, rfl⟩⟩
  · exact ⟨_, commit_of_le h, .inr (.inr ⟨new, n, h, rfl, hw⟩)⟩

theorem outcomes_of_raise {i : Instr} {s : State} {k : FaultKind} (v : Option Word) (hk : Raises i s k) :
    ∃ t, raise s k v = .next t ∧ Outcomes i s t := ⟨_, rfl, .inl ⟨k, v, hk, rfl⟩⟩

theorem outcomes_of_skipOnKey {i : Instr} {x : Reg} {s : State} (want : Bool)
    (hi : i = .skipIfPressed x ∨ i = .skipIfNotPressed x) :
    ∃ t, skipOnKey x want s = .next t ∧ Outcomes i s t := by
  unfold skipOnKey
  rcases h : keyOperand (s.reg x) with _ | k
  · exact outcomes_of_raise _ (.inr (.inr (.inr ⟨rfl, x, hi, keyOperand_eq_none.1 h⟩)))
  · refine outcomes_of_commit ?_
    rcases hi with rfl | rfl <;> rfl

/-- Every instruction answers a next state, in every state, and only these. -/
theorem exec_outcomes (i : Instr) (s : State) : ∃ t, exec i s = .next t ∧ Outcomes i s t := by
  cases i with
  | ret =>
    simp only [exec, execReturn]
    rcases h : s.pop with _ | ⟨a, new⟩
    · exact outcomes_of_raise _ (.inr (.inr (.inl ⟨rfl, rfl, (pop_none_iff s).1 h⟩)))
    · exact outcomes_of_commit ⟨a, h⟩
  | callSubroutine nnn =>
    simp only [exec, execCallSubroutine]
    rcases h : s.push (BitVec.ofNat 16 (s.pc.toNat + 2)) with _ | new
    · exact outcomes_of_raise _ (.inr (.inl ⟨rfl, ⟨nnn, rfl⟩, (push_none_iff s _).1 h⟩))
    · exact outcomes_of_commit h
  | skipIfPressed x => exact outcomes_of_skipOnKey true (.inl rfl)
  | skipIfNotPressed x => exact outcomes_of_skipOnKey false (.inr rfl)
  | addToIndex x =>
    simp only [exec, execAddToIndex]
    split_ifs with h
    · exact outcomes_of_commit ⟨h, rfl⟩
    · exact outcomes_of_raise _ (.inl rfl)
  | decimalConversion x =>
    simp only [exec, execDecimalConversion]
    split_ifs with h
    · exact outcomes_of_commit ⟨(rangeValid_succ _ 2).1 h, rfl⟩
    · exact outcomes_of_raise _ (.inl rfl)
  | store x =>
    simp only [exec, execStore]
    split_ifs with h
    · exact outcomes_of_commit ⟨(rangeValid_succ _ x.val).1 h, rfl⟩
    · exact outcomes_of_raise _ (.inl rfl)
  | load x =>
    simp only [exec, execLoad]
    split_ifs with h
    · exact outcomes_of_commit ⟨(rangeValid_succ _ x.val).1 h, rfl⟩
    · exact outcomes_of_raise _ (.inl rfl)
  | display x y n =>
    simp only [exec, execDisplay]
    split_ifs with h
    · exact outcomes_of_commit ⟨_, rfl, rfl⟩
    · exact outcomes_of_raise _ (.inl rfl)
  | getKey x => exact ⟨_, rfl, .inr (.inl ⟨x, rfl, rfl⟩)⟩
  | _ => exact outcomes_of_commit rfl

/-- Everything an instruction can do, from its next state. -/
theorem exec_cases {i : Instr} {s t : State} (h : exec i s = .next t) : Outcomes i s t := by
  obtain ⟨t', ht, ho⟩ := exec_outcomes i s
  rw [h] at ht
  exact (Host.Outcome.next.inj ht) ▸ ho

/-! ## What the writes of an instruction leave alone -/

theorem setFlag_eq (s : State) (f : Bool) : s.setFlag f = s.setReg 0xF (flagByte f) := rfl

/-- No instruction writes the mode (but GetKey), the record, the latch, the keypad or the agenda (R45, R47 to R50). -/
theorem Writes.control {i : Instr} {s new : State} (h : Writes i s new) :
    new.mode = s.mode ∧ new.faultRecord = s.faultRecord ∧ new.keyLatch = s.keyLatch ∧ new.key = s.key ∧
      new.agenda = s.agenda := by
  cases i <;> simp only [Writes] at h
  case ret => obtain ⟨a, h⟩ := h; rw [(pop_some h).2.2.1]; exact ⟨rfl, rfl, rfl, rfl, rfl⟩
  case callSubroutine => rw [(push_some h).2.2.1]; exact ⟨rfl, rfl, rfl, rfl, rfl⟩
  case load => rw [h.2, loadRegs_eq]; exact ⟨rfl, rfl, rfl, rfl, rfl⟩
  case display => obtain ⟨out, -, h⟩ := h; subst h; exact ⟨rfl, rfl, rfl, rfl, rfl⟩
  all_goals first
    | (subst h; exact ⟨rfl, rfl, rfl, rfl, rfl⟩)
    | (obtain ⟨-, h⟩ := h; subst h; exact ⟨rfl, rfl, rfl, rfl, rfl⟩)

end Sys2Proof.Machine
end

