-- ==== Sys2Proof/Laws/PerInstr.lean ====
section
/-! SUPPORT. Statements made for each instruction as syntax, one lemma per constructor. -/

namespace Sys2Proof.Laws

/-- A bit of a word of format FA. -/
theorem getElem_wordFA (op : BitVec 4) (a : Addr12) (i : Nat) (hi : i < 16) :
    (wordFA op a)[i] = if h : i < 12 then a[i] else op[i - 12] := BitVec.getElem_append hi

/-- A bit of a word of format FXB. -/
theorem getElem_wordFXB (op : BitVec 4) (x : Reg) (nn : Byte) (i : Nat) (hi : i < 16) :
    (wordFXB op x nn)[i] =
      if h : i < 8 then nn[i] else if h' : i - 8 < 4 then (regBits x)[i - 8] else op[i - 8 - 4] := by
  refine (BitVec.getElem_append (x := op ++ regBits x) hi).trans ?_
  split_ifs with h h'
  · rfl
  · exact (BitVec.getElem_append (x := op) (by omega)).trans (dif_pos h')
  · exact (BitVec.getElem_append (x := op) (by omega)).trans (dif_neg h')

/-- A bit of a word of format FXYN. -/
theorem getElem_wordFXYN (op : BitVec 4) (x y : Reg) (n : BitVec 4) (i : Nat) (hi : i < 16) :
    (wordFXYN op x y n)[i] =
      if h : i < 4 then n[i] else if h' : i - 4 < 4 then (regBits y)[i - 4]
      else if h'' : i - 4 - 4 < 4 then (regBits x)[i - 4 - 4] else op[i - 4 - 4 - 4] := by
  refine (BitVec.getElem_append (x := op ++ regBits x ++ regBits y) hi).trans ?_
  split_ifs with h h' h''
  · rfl
  · exact (BitVec.getElem_append (x := op ++ regBits x) (by omega)).trans (dif_pos h')
  · refine (BitVec.getElem_append (x := op ++ regBits x) (by omega)).trans ((dif_neg h').trans ?_)
    exact (BitVec.getElem_append (x := op) (by omega)).trans (dif_pos h'')
  · refine (BitVec.getElem_append (x := op ++ regBits x) (by omega)).trans ((dif_neg h').trans ?_)
    exact (BitVec.getElem_append (x := op) (by omega)).trans (dif_neg h'')

/-- The bits of a word of format FA under the mask of its opcode. -/
theorem wordFA_masked (op : BitVec 4) (a : Addr12) : wordFA op a &&& 0xF000 = wordFA op 0 := by
  apply BitVec.eq_of_getElem_eq
  intro i hi
  interval_cases i <;> simp [getElem_wordFA]

/-- The bits of a word of format FXB under the mask of its opcode. -/
theorem wordFXB_masked (op : BitVec 4) (x : Reg) (nn : Byte) : wordFXB op x nn &&& 0xF000 = wordFXB op 0 0 := by
  apply BitVec.eq_of_getElem_eq
  intro i hi
  interval_cases i <;> simp [getElem_wordFXB, regBits]

/-- The bits of a word of format FXB under the mask of its opcode and sub-opcode. -/
theorem wordFXB_masked_sub (op : BitVec 4) (x : Reg) (nn : Byte) : wordFXB op x nn &&& 0xF0FF = wordFXB op 0 nn := by
  apply BitVec.eq_of_getElem_eq
  intro i hi
  interval_cases i <;> simp [getElem_wordFXB, regBits]

/-- The bits of a word of format FXYN under the mask of its opcode. -/
theorem wordFXYN_masked (op : BitVec 4) (x y : Reg) (n : BitVec 4) :
    wordFXYN op x y n &&& 0xF000 = wordFXYN op 0 0 0 := by
  apply BitVec.eq_of_getElem_eq
  intro i hi
  interval_cases i <;> simp [getElem_wordFXYN, regBits]

/-- The bits of a word of format FXYN under the mask of its opcode and sub-opcode. -/
theorem wordFXYN_masked_sub (op : BitVec 4) (x y : Reg) (n : BitVec 4) :
    wordFXYN op x y n &&& 0xF00F = wordFXYN op 0 0 n := by
  apply BitVec.eq_of_getElem_eq
  intro i hi
  interval_cases i <;> simp [getElem_wordFXYN, regBits]

namespace EncodesItsRow

/-- The word of an instruction matches the mask and pattern of the table's row of its name (R120). -/
def Statement (i : Instr) : Prop :=
  ∃ row ∈ opcodeTable, row.mnemonic = i.mnemonic ∧ encode i &&& row.mask = row.pattern

theorem clearScreen : Statement .clearScreen :=
  ⟨⟨"ClearScreen", 0x00E0, 0xFFFF⟩, by decide, rfl, by decide⟩

theorem ret : Statement .ret :=
  ⟨⟨"Return", 0x00EE, 0xFFFF⟩, by decide, rfl, by decide⟩

theorem jump (nnn : Addr12) : Statement (.jump nnn) :=
  ⟨⟨"Jump", 0x1000, 0xF000⟩, by decide, rfl, by rw [encode, wordFA_masked]; rfl⟩

theorem callSubroutine (nnn : Addr12) : Statement (.callSubroutine nnn) :=
  ⟨⟨"CallSubroutine", 0x2000, 0xF000⟩, by decide, rfl, by rw [encode, wordFA_masked]; rfl⟩

theorem skipEqual (x : Reg) (nn : Byte) : Statement (.skipEqual x nn) :=
  ⟨⟨"SkipEqual", 0x3000, 0xF000⟩, by decide, rfl, by rw [encode, wordFXB_masked]; rfl⟩

theorem skipNotEqual (x : Reg) (nn : Byte) : Statement (.skipNotEqual x nn) :=
  ⟨⟨"SkipNotEqual", 0x4000, 0xF000⟩, by decide, rfl, by rw [encode, wordFXB_masked]; rfl⟩

theorem skipRegisterEqual (x y : Reg) : Statement (.skipRegisterEqual x y) :=
  ⟨⟨"SkipRegisterEqual", 0x5000, 0xF000⟩, by decide, rfl, by rw [encode, wordFXYN_masked]; rfl⟩

theorem set (x : Reg) (nn : Byte) : Statement (.set x nn) :=
  ⟨⟨"Set", 0x6000, 0xF000⟩, by decide, rfl, by rw [encode, wordFXB_masked]; rfl⟩

theorem add (x : Reg) (nn : Byte) : Statement (.add x nn) :=
  ⟨⟨"Add", 0x7000, 0xF000⟩, by decide, rfl, by rw [encode, wordFXB_masked]; rfl⟩

theorem setRegister (x y : Reg) : Statement (.setRegister x y) :=
  ⟨⟨"SetRegister", 0x8000, 0xF00F⟩, by decide, rfl, by rw [encode, wordFXYN_masked_sub]; rfl⟩

theorem orRegister (x y : Reg) : Statement (.orRegister x y) :=
  ⟨⟨"OrRegister", 0x8001, 0xF00F⟩, by decide, rfl, by rw [encode, wordFXYN_masked_sub]; rfl⟩

theorem andRegister (x y : Reg) : Statement (.andRegister x y) :=
  ⟨⟨"AndRegister", 0x8002, 0xF00F⟩, by decide, rfl, by rw [encode, wordFXYN_masked_sub]; rfl⟩

theorem xorRegister (x y : Reg) : Statement (.xorRegister x y) :=
  ⟨⟨"XorRegister", 0x8003, 0xF00F⟩, by decide, rfl, by rw [encode, wordFXYN_masked_sub]; rfl⟩

theorem addRegister (x y : Reg) : Statement (.addRegister x y) :=
  ⟨⟨"AddRegister", 0x8004, 0xF00F⟩, by decide, rfl, by rw [encode, wordFXYN_masked_sub]; rfl⟩

theorem subtractYFromX (x y : Reg) : Statement (.subtractYFromX x y) :=
  ⟨⟨"SubtractYFromX", 0x8005, 0xF00F⟩, by decide, rfl, by rw [encode, wordFXYN_masked_sub]; rfl⟩

theorem shiftRight (x y : Reg) : Statement (.shiftRight x y) :=
  ⟨⟨"ShiftRight", 0x8006, 0xF00F⟩, by decide, rfl, by rw [encode, wordFXYN_masked_sub]; rfl⟩

theorem subtractXFromY (x y : Reg) : Statement (.subtractXFromY x y) :=
  ⟨⟨"SubtractXFromY", 0x8007, 0xF00F⟩, by decide, rfl, by rw [encode, wordFXYN_masked_sub]; rfl⟩

theorem shiftLeft (x y : Reg) : Statement (.shiftLeft x y) :=
  ⟨⟨"ShiftLeft", 0x800E, 0xF00F⟩, by decide, rfl, by rw [encode, wordFXYN_masked_sub]; rfl⟩

theorem skipRegisterNotEqual (x y : Reg) : Statement (.skipRegisterNotEqual x y) :=
  ⟨⟨"SkipRegisterNotEqual", 0x9000, 0xF000⟩, by decide, rfl, by rw [encode, wordFXYN_masked]; rfl⟩

theorem setIndex (nnn : Addr12) : Statement (.setIndex nnn) :=
  ⟨⟨"SetIndex", 0xA000, 0xF000⟩, by decide, rfl, by rw [encode, wordFA_masked]; rfl⟩

theorem jumpWithOffset (nnn : Addr12) : Statement (.jumpWithOffset nnn) :=
  ⟨⟨"JumpWithOffset", 0xB000, 0xF000⟩, by decide, rfl, by rw [encode, wordFA_masked]; rfl⟩

theorem random (x : Reg) (nn : Byte) : Statement (.random x nn) :=
  ⟨⟨"Random", 0xC000, 0xF000⟩, by decide, rfl, by rw [encode, wordFXB_masked]; rfl⟩

theorem display (x y : Reg) (n : Height) : Statement (.display x y n) :=
  ⟨⟨"Display", 0xD000, 0xF000⟩, by decide, rfl, by rw [encode, wordFXYN_masked]; rfl⟩

theorem skipIfPressed (x : Reg) : Statement (.skipIfPressed x) :=
  ⟨⟨"SkipIfPressed", 0xE09E, 0xF0FF⟩, by decide, rfl, by rw [encode, wordFXB_masked_sub]; rfl⟩

theorem skipIfNotPressed (x : Reg) : Statement (.skipIfNotPressed x) :=
  ⟨⟨"SkipIfNotPressed", 0xE0A1, 0xF0FF⟩, by decide, rfl, by rw [encode, wordFXB_masked_sub]; rfl⟩

theorem setRegisterDelayTimer (x : Reg) : Statement (.setRegisterDelayTimer x) :=
  ⟨⟨"SetRegisterDelayTimer", 0xF007, 0xF0FF⟩, by decide, rfl, by rw [encode, wordFXB_masked_sub]; rfl⟩

theorem getKey (x : Reg) : Statement (.getKey x) :=
  ⟨⟨"GetKey", 0xF00A, 0xF0FF⟩, by decide, rfl, by rw [encode, wordFXB_masked_sub]; rfl⟩

theorem setDelayTimer (x : Reg) : Statement (.setDelayTimer x) :=
  ⟨⟨"SetDelayTimer", 0xF015, 0xF0FF⟩, by decide, rfl, by rw [encode, wordFXB_masked_sub]; rfl⟩

theorem setSoundTimer (x : Reg) : Statement (.setSoundTimer x) :=
  ⟨⟨"SetSoundTimer", 0xF018, 0xF0FF⟩, by decide, rfl, by rw [encode, wordFXB_masked_sub]; rfl⟩

theorem addToIndex (x : Reg) : Statement (.addToIndex x) :=
  ⟨⟨"AddToIndex", 0xF01E, 0xF0FF⟩, by decide, rfl, by rw [encode, wordFXB_masked_sub]; rfl⟩

theorem fontCharacter (x : Reg) : Statement (.fontCharacter x) :=
  ⟨⟨"FontCharacter", 0xF029, 0xF0FF⟩, by decide, rfl, by rw [encode, wordFXB_masked_sub]; rfl⟩

theorem decimalConversion (x : Reg) : Statement (.decimalConversion x) :=
  ⟨⟨"DecimalConversion", 0xF033, 0xF0FF⟩, by decide, rfl, by rw [encode, wordFXB_masked_sub]; rfl⟩

theorem store (x : Reg) : Statement (.store x) :=
  ⟨⟨"Store", 0xF055, 0xF0FF⟩, by decide, rfl, by rw [encode, wordFXB_masked_sub]; rfl⟩

theorem load (x : Reg) : Statement (.load x) :=
  ⟨⟨"Load", 0xF065, 0xF0FF⟩, by decide, rfl, by rw [encode, wordFXB_masked_sub]; rfl⟩

end EncodesItsRow

end Sys2Proof.Laws
end

