-- ==== Sys2Proof/Tests/Slice0.lean ====
section
/-! SUPPORT. The model's own tests: the well-formedness smoke, every constructor's decoding, one step at a time against
95_test_vectors.md (the id of each vector stands beside its test), and for every obligation with hypotheses a witness that
meets them. -/

namespace Sys2Proof.Tests

open Sys2Proof.Machine

/-! ## Helpers -/

/-- The next state of a result, if it has one. -/
def nextOf : Result → Option State
  | .next t => some t
  | _ => none

/-- Place the word at PC, take the core's step, and ask `p` of the next state. -/
def runs (w : Word) (s : State) (p : State → Bool) : Bool :=
  (nextOf (step (s.withFetchWord 16 w.toNat))).any p

/-- One step of the queued agent, and `p` of the next state. -/
def steps (s : State) (p : State → Bool) : Bool := (nextOf (step s)).any p

/-- The reset state with PC moved. -/
def atPc (pc : Word) : State := State.reset.setPc pc

/-- The reset state with Vx and Vy set. -/
def withRegs (x : Reg) (a : Byte) (y : Reg) (b : Byte) : State := (State.reset.setReg x a).setReg y b

/-- The reset state with I set and bytes stored from an address on. -/
def withMem (i : Word) (a : Nat) (bytes : List Byte) : State :=
  (State.reset.setI i).setMem (State.reset.mem.writeList a bytes)

/-- The reset state with one pixel on. -/
def withPixel (r : Fin 32) (c : Fin 64) : State :=
  { State.reset with disp := State.reset.disp.set r (State.reset.disp[r].set c true) }

/-- `t` is the fault entry of kind `k` with that record. -/
def faulted (k : FaultKind) (pc : Word) (word value : Option Word) (t : State) : Bool :=
  t.mode == .halted k && t.keyLatch == none &&
    t.faultRecord == some { kind := k, pc := pc, word := word, value := value }

/-- Each listed pixel of the screen is on, or each is off. -/
def pixelsAre (v : Bool) (d : Screen) (ps : List (Fin 32 × Fin 64)) : Bool := ps.all fun p => d[p.1][p.2] == v

/-- A key wait for Vx at the word Fx0A, placed at PC. -/
def waiting (x : Reg) (pc : Word) : State :=
  let s := atPc pc
  { s with mode := .awaitingKey x, mem := s.mem.writeWord pc.toNat (encode (.getKey x)) }

/-! ## Well-formedness: each check refuses an ill-formed term -/

/-- A register index, an immediate byte and an address one too large for their fields (R102, R105). -/
theorem test_fitsField_refuses : fitsField 4 16 = false ∧ fitsField 8 256 = false ∧ fitsField 12 4096 = false := by decide

theorem test_fitsField_accepts : fitsField 4 15 = true ∧ fitsField 8 255 = true ∧ fitsField 12 4095 = true := by decide

theorem test_legalGroup0_refuses : legalWord 0x0000 = false ∧ legalWord 0x0123 = false ∧ legalWord 0x00EF = false := by decide

theorem test_legalGroup8_refuses : legalWord 0x8008 = false ∧ legalWord 0x812D = false ∧ legalWord 0x800F = false := by decide

theorem test_legalGroupE_refuses : legalWord 0xE09F = false ∧ legalWord 0xE0A2 = false := by decide

theorem test_legalGroupF_refuses : legalWord 0xF000 = false ∧ legalWord 0xF01F = false ∧ legalWord 0xFF66 = false := by decide

theorem test_wellFormed : (Instr.display 15 15 15).wellFormed = true ∧ (Instr.jump 0xFFF).wellFormed = true := by decide

/-! ## Decoding: every constructor by a word written out bit by bit from the formats of R103 and the table of R114 -/

theorem test_decode_control :
    decodeTableWord 16 0b0000000011100000 = some .clearScreen ∧
    decodeTableWord 16 0b0000000011101110 = some .ret ∧
    decodeTableWord 16 0b0001_0010_0011_0100 = some (.jump 0x234) ∧
    decodeTableWord 16 0b0010_0011_0000_0001 = some (.callSubroutine 0x301) ∧
    decodeTableWord 16 0b1011_1111_0000_0001 = some (.jumpWithOffset 0xF01) := by decide

theorem test_decode_skips :
    decodeTableWord 16 0b0011_1010_0010_1011 = some (.skipEqual 0xA 0x2B) ∧
    decodeTableWord 16 0b0100_1010_0010_1011 = some (.skipNotEqual 0xA 0x2B) ∧
    decodeTableWord 16 0b0101_0001_0010_0111 = some (.skipRegisterEqual 1 2) ∧
    decodeTableWord 16 0b1001_0001_0010_0101 = some (.skipRegisterNotEqual 1 2) ∧
    decodeTableWord 16 0b1110_0001_1001_1110 = some (.skipIfPressed 1) ∧
    decodeTableWord 16 0b1110_0001_1010_0001 = some (.skipIfNotPressed 1) := by decide

theorem test_decode_registers :
    decodeTableWord 16 0b0110_1010_1111_0001 = some (.set 0xA 0xF1) ∧
    decodeTableWord 16 0b0111_0011_0000_0010 = some (.add 3 0x02) ∧
    decodeTableWord 16 0b1000_0001_0010_0000 = some (.setRegister 1 2) ∧
    decodeTableWord 16 0b1000_0001_0010_0001 = some (.orRegister 1 2) ∧
    decodeTableWord 16 0b1000_0001_0010_0010 = some (.andRegister 1 2) ∧
    decodeTableWord 16 0b1000_0001_0010_0011 = some (.xorRegister 1 2) := by decide

theorem test_decode_arithmetic :
    decodeTableWord 16 0b1000_0001_0010_0100 = some (.addRegister 1 2) ∧
    decodeTableWord 16 0b1000_0001_0010_0101 = some (.subtractYFromX 1 2) ∧
    decodeTableWord 16 0b1000_0001_0010_0110 = some (.shiftRight 1 2) ∧
    decodeTableWord 16 0b1000_0001_0010_0111 = some (.subtractXFromY 1 2) ∧
    decodeTableWord 16 0b1000_0001_0010_1110 = some (.shiftLeft 1 2) := by decide

theorem test_decode_index_memory :
    decodeTableWord 16 0b1010_0001_0010_0011 = some (.setIndex 0x123) ∧
    decodeTableWord 16 0b1111_0010_0001_1110 = some (.addToIndex 2) ∧
    decodeTableWord 16 0b1111_0011_0010_1001 = some (.fontCharacter 3) ∧
    decodeTableWord 16 0b1111_0101_0011_0011 = some (.decimalConversion 5) ∧
    decodeTableWord 16 0b1111_0010_0101_0101 = some (.store 2) ∧
    decodeTableWord 16 0b1111_0010_0110_0101 = some (.load 2) := by decide

theorem test_decode_display_timers_input :
    decodeTableWord 16 0b1101_0001_0010_0101 = some (.display 1 2 5) ∧
    decodeTableWord 16 0b1100_0011_0000_1111 = some (.random 3 0x0F) ∧
    decodeTableWord 16 0b1111_0011_0000_0111 = some (.setRegisterDelayTimer 3) ∧
    decodeTableWord 16 0b1111_0010_0000_1010 = some (.getKey 2) ∧
    decodeTableWord 16 0b1111_0011_0001_0101 = some (.setDelayTimer 3) ∧
    decodeTableWord 16 0b1111_0100_0001_1000 = some (.setSoundTimer 4) := by decide

/-- 95_test_vectors.md, "Decode of illegal words". -/
theorem test_decode_illegal :
    ([0x0000, 0x0123, 0x00E1, 0x00EF, 0x0FFF, 0x8008, 0x800F, 0xE09F, 0xE0A2, 0xF000, 0xF0FF, 0xF01F, 0xF056,
      0xFF66].all fun w => decodeTableWord 16 w == none) = true := by decide

/-- Rejected by name, with the word (R118). -/
theorem test_decode_illegal_by_name : decode 0x8128 = .error (.unrecognizedInstruction 0x8128) := rfl

/-- Same file: the words that decode although a neighbour might claim them. -/
theorem test_decode_neighbours :
    decodeTableWord 16 0x00E0 = some .clearScreen ∧ decodeTableWord 16 0x00EE = some .ret ∧
    decodeTableWord 16 0x5121 = some (.skipRegisterEqual 1 2) ∧
    decodeTableWord 16 0x9125 = some (.skipRegisterNotEqual 1 2) ∧
    decodeTableWord 16 0xD120 = some (.display 1 2 0) := by decide

/-- Fewer than two bytes are no instruction (R100). -/
theorem test_decodeBytes_truncated : decodeBytes [0xD1] = .error .truncated := rfl

/-- The byte at the lower address is the word's high byte (R74, R101). -/
theorem test_decodeBytes_order : decodeBytes [0xD1, 0x25, 0xFF] = .ok (.display 1 2 5, [0xFF]) := rfl

/-- No word matches two rows of the opcode table (R104, R120). -/
theorem test_table_rows_disjoint :
    opcodeTable.Pairwise fun a b => a.pattern &&& (a.mask &&& b.mask) ≠ b.pattern &&& (a.mask &&& b.mask) := by decide

/-- 34 rows (R114). -/
theorem test_table_has_34_rows : opcodeTable.length = 34 := by decide

/-! ## Control flow -/

/-- S5, CF1. -/
theorem test_clearScreen : runs 0x00E0 (withPixel 5 5) (fun t => pixelsAre false t.disp [(5, 5), (0, 0), (31, 63)] && t.needsRedraw && t.pc == 0x202) := by
  decide

/-- CF2: at FFE the fault commits nothing. -/
theorem test_clearScreen_faults : runs 0x00E0 ((withPixel 5 5).setPc 0xFFE)
    (fun t => faulted .memoryOutOfBounds 0xFFE (some 0x00E0) (some 0x1000) t && pixelsAre true t.disp [(5, 5)] && !t.needsRedraw) := by
  decide

/-- FE3. -/
theorem test_jump : runs 0x1FFF State.reset (fun t => t.pc == 0xFFF && t.mode == .running) := by decide

/-- FE4: an odd PC is legal. -/
theorem test_jump_odd : runs 0x1201 State.reset (fun t => t.pc == 0x201 && t.fetch == some 0x0100) := by decide

/-- CF5, CF7: the 16th push succeeds; the pushed value may be 1000. -/
theorem test_call :
    runs 0x2300 { State.reset with sp := 15 } (fun t => t.stack[15] == 0x202 && t.sp == 16 && t.pc == 0x300) ∧
    runs 0x2300 (atPc 0xFFE) (fun t => t.stack[0] == 0x1000 && t.sp == 1 && t.pc == 0x300) := by decide

/-- CF6, S7: the 17th push faults, with no value. -/
theorem test_call_overflows : runs 0x2300 { State.reset with sp := 16 }
    (fun t => faulted .stackOverflow 0x200 (some 0x2300) none t && t.sp == 16 && t.pc == 0x200) := by decide

/-- CF10: last in, first out; nothing is added to the popped value. -/
theorem test_return : runs 0x00EE { State.reset with sp := 2, stack := (State.reset.stack.set 0 0x206).set 1 0x20A }
    (fun t => t.sp == 1 && t.pc == 0x20A) := by decide

/-- CF8, CF9. -/
theorem test_return_faults :
    runs 0x00EE { atPc 0x300 with sp := 1, stack := State.reset.stack.set 0 0x1000 }
      (fun t => faulted .memoryOutOfBounds 0x300 (some 0x00EE) (some 0x1000) t && t.sp == 1) ∧
    runs 0x00EE (atPc 0x300) (faulted .stackUnderflow 0x300 (some 0x00EE) none) := by decide

/-- CF12, CF13: the offset is always V0; the largest legal target. -/
theorem test_jumpWithOffset :
    runs 0xB000 (withRegs 0 0xFF 1 0x22) (fun t => t.pc == 0x0FF) ∧
    runs 0xBFFF State.reset (fun t => t.pc == 0xFFF) := by decide

/-- CF14: no wrap. -/
theorem test_jumpWithOffset_faults : runs 0xBF01 (withRegs 0 0xFF 1 0)
    (fun t => faulted .memoryOutOfBounds 0x200 (some 0xBF01) (some 0x1000) t && t.pc == 0x200) := by decide

/-! ## Skips -/

/-- SK1, SK2. -/
theorem test_skipEqual :
    runs 0x3A2A (withRegs 0xA 0x2A 0 0) (fun t => t.pc == 0x204) ∧
    runs 0x3A2B (withRegs 0xA 0x2A 0 0) (fun t => t.pc == 0x202) := by decide

/-- SK3, SK4, SK5: the next-PC check of a skip. -/
theorem test_skipEqual_edge :
    runs 0x3A2A ((withRegs 0xA 0x2A 0 0).setPc 0xFFC) (faulted .memoryOutOfBounds 0xFFC (some 0x3A2A) (some 0x1000)) ∧
    runs 0x3A2B ((withRegs 0xA 0x2A 0 0).setPc 0xFFC) (fun t => t.pc == 0xFFE) ∧
    runs 0x3A2B ((withRegs 0xA 0x2A 0 0).setPc 0xFFE) (faulted .memoryOutOfBounds 0xFFE (some 0x3A2B) (some 0x1000)) := by
  decide

/-- SK6. -/
theorem test_skipNotEqual :
    runs 0x4A2A (withRegs 0xA 0x2A 0 0) (fun t => t.pc == 0x202) ∧
    runs 0x4A00 (withRegs 0xA 0x2A 0 0) (fun t => t.pc == 0x204) := by decide

/-- SK7, SK8, SK9. -/
theorem test_skipRegisterEqual :
    runs 0x5110 (withRegs 1 0x09 0 0) (fun t => t.pc == 0x204) ∧
    runs 0x5127 (withRegs 1 0x07 2 0x07) (fun t => t.pc == 0x204) ∧
    runs 0x5120 (withRegs 1 0x07 2 0x08) (fun t => t.pc == 0x202) := by decide

/-- SK10, SK11, SK12. -/
theorem test_skipRegisterNotEqual :
    runs 0x9110 (withRegs 1 0x09 0 0) (fun t => t.pc == 0x202) ∧
    runs 0x9127 (withRegs 1 0x07 2 0x08) (fun t => t.pc == 0x204) ∧
    runs 0x9120 (withRegs 1 0x07 2 0x07) (fun t => t.pc == 0x202) := by decide

/-- The keypad with one key held. -/
def holding (k : Key) (s : State) : State := { s with key := s.key.set k true }

/-- SK13, SK15. -/
theorem test_skipIfPressed :
    runs 0xE19E (holding 5 (withRegs 1 0x05 0 0)) (fun t => t.pc == 0x204) ∧
    runs 0xE19E (withRegs 1 0x05 0 0) (fun t => t.pc == 0x202) ∧
    runs 0xEF9E (holding 15 (withRegs 15 0x0F 0 0)) (fun t => t.pc == 0x204) := by decide

/-- SK16, SK17: no masking, and the index is checked before the next PC. -/
theorem test_skipIfPressed_faults :
    runs 0xE19E (withRegs 1 0x10 0 0) (faulted .invalidKeyIndex 0x200 (some 0xE19E) (some 0x10)) ∧
    runs 0xE19E (holding 5 ((withRegs 1 0x05 0 0).setPc 0xFFC))
      (faulted .memoryOutOfBounds 0xFFC (some 0xE19E) (some 0x1000)) ∧
    runs 0xE19E ((withRegs 1 0x15 0 0).setPc 0xFFC) (faulted .invalidKeyIndex 0xFFC (some 0xE19E) (some 0x15)) := by decide

/-- SK14. -/
theorem test_skipIfNotPressed :
    runs 0xE1A1 (holding 5 (withRegs 1 0x05 0 0)) (fun t => t.pc == 0x202) ∧
    runs 0xE1A1 (withRegs 1 0x05 0 0) (fun t => t.pc == 0x204) := by decide

/-- SK16. -/
theorem test_skipIfNotPressed_faults :
    runs 0xE1A1 (withRegs 1 0xFF 0 0) (faulted .invalidKeyIndex 0x200 (some 0xE1A1) (some 0xFF)) := by decide

/-! ## Register operations -/

/-- RO1, RO2. -/
theorem test_set :
    runs 0x6AFF State.reset (fun t => t.reg 0xA == 0xFF && t.pc == 0x202) ∧
    runs 0x6F07 (withRegs 0xF 0x01 0 0) (fun t => t.reg 0xF == 0x07) := by decide

/-- S2, RO4: no carry flag, and VF is an ordinary register. -/
theorem test_add :
    runs 0x7302 (withRegs 3 0xFF 0xF 0x05) (fun t => t.reg 3 == 0x01 && t.reg 0xF == 0x05 && t.pc == 0x202) ∧
    runs 0x7F01 (withRegs 0xF 0xFF 0 0) (fun t => t.reg 0xF == 0x00) := by decide

/-- FE2: the fault commits nothing. -/
theorem test_add_faults : runs 0x7002 ((withRegs 0 0x01 1 0).setPc 0xFFE)
    (fun t => faulted .memoryOutOfBounds 0xFFE (some 0x7002) (some 0x1000) t && t.reg 0 == 0x01 && t.pc == 0xFFE) := by
  decide

/-- RO6. -/
theorem test_setRegister :
    runs 0x8120 (withRegs 2 0x33 1 0) (fun t => t.reg 1 == 0x33 && t.reg 2 == 0x33 && t.pc == 0x202) := by decide

/-- RO7, RO11: VF is not reset. -/
theorem test_orRegister :
    runs 0x8121 ((withRegs 1 0xF0 2 0x0F).setReg 0xF 7) (fun t => t.reg 1 == 0xFF && t.reg 0xF == 7) ∧
    runs 0x8F21 (withRegs 2 0x10 0xF 0x01) (fun t => t.reg 0xF == 0x11) := by decide

/-- RO8. -/
theorem test_andRegister :
    runs 0x8122 ((withRegs 1 0xF0 2 0x0F).setReg 0xF 7) (fun t => t.reg 1 == 0x00 && t.reg 0xF == 7) := by decide

/-- RO9, RO10. -/
theorem test_xorRegister :
    runs 0x8123 ((withRegs 1 0xFF 2 0x0F).setReg 0xF 7) (fun t => t.reg 1 == 0xF0 && t.reg 0xF == 7) ∧
    runs 0x8113 (withRegs 1 0x5A 0 0) (fun t => t.reg 1 == 0x00) := by decide

/-! ## Arithmetic with flags -/

/-- AR1, AR3, S3: a carry, a sum of exactly FF, and the source's 10 + 20. -/
theorem test_addRegister :
    runs 0x8124 (withRegs 1 0xC8 2 0x64) (fun t => t.reg 1 == 0x2C && t.reg 0xF == 1 && t.pc == 0x202) ∧
    runs 0x8124 ((withRegs 1 0xFF 2 0x00).setReg 0xF 1) (fun t => t.reg 1 == 0xFF && t.reg 0xF == 0) ∧
    runs 0x8124 ((withRegs 1 0x0A 2 0x14).setReg 0xF 1) (fun t => t.reg 1 == 0x1E && t.reg 0xF == 0) := by decide

/-- AR5, AR6: VF as the destination and as a source. -/
theorem test_addRegister_vf :
    runs 0x8F14 (withRegs 0xF 0xFF 1 0x01) (fun t => t.reg 0xF == 1) ∧
    runs 0x81F4 (withRegs 1 0x01 0xF 0xFF) (fun t => t.reg 1 == 0x00 && t.reg 0xF == 1) := by decide

/-- AR7, AR8: borrow, and equal operands. -/
theorem test_subtractYFromX :
    runs 0x8125 (withRegs 1 0x05 2 0x07) (fun t => t.reg 1 == 0xFE && t.reg 0xF == 0) ∧
    runs 0x8125 (withRegs 1 0x07 2 0x07) (fun t => t.reg 1 == 0x00 && t.reg 0xF == 1) := by decide

/-- AR11. -/
theorem test_subtractYFromX_vf : runs 0x8F25 (withRegs 0xF 0x10 2 0x01) (fun t => t.reg 0xF == 1) := by decide

/-- AR12, AR13. -/
theorem test_subtractXFromY :
    runs 0x8127 (withRegs 1 0x05 2 0x07) (fun t => t.reg 1 == 0x02 && t.reg 0xF == 1) ∧
    runs 0x8127 (withRegs 1 0x01 2 0x00) (fun t => t.reg 1 == 0xFF && t.reg 0xF == 0) := by decide

/-- AR15: the source is Vy and the old Vx is ignored. AR18: y = F. -/
theorem test_shiftRight :
    runs 0x8126 (withRegs 1 0xAA 2 0x05) (fun t => t.reg 1 == 0x02 && t.reg 2 == 0x05 && t.reg 0xF == 1) ∧
    runs 0x81F6 (withRegs 1 0x09 0xF 0x03) (fun t => t.reg 1 == 0x01 && t.reg 0xF == 1) := by decide

/-- AR18: x = F. AR16. -/
theorem test_shiftRight_vf :
    runs 0x8F26 (withRegs 2 0xFE 1 0) (fun t => t.reg 0xF == 0) ∧
    runs 0x8126 (withRegs 2 0xFE 1 0) (fun t => t.reg 1 == 0x7F && t.reg 0xF == 0) := by decide

/-- AR19. -/
theorem test_shiftLeft :
    runs 0x812E (withRegs 2 0x81 1 0) (fun t => t.reg 1 == 0x02 && t.reg 0xF == 1) ∧
    runs 0x812E (withRegs 2 0x7F 1 0) (fun t => t.reg 1 == 0xFE && t.reg 0xF == 0) := by decide

/-- AR21. -/
theorem test_shiftLeft_vf :
    runs 0x8F2E (withRegs 2 0x81 1 0) (fun t => t.reg 0xF == 1) ∧
    runs 0x8F2E (withRegs 2 0x01 1 0) (fun t => t.reg 0xF == 0) := by decide

/-! ## Index and memory -/

/-- IM1. -/
theorem test_setIndex : runs 0xAFFF State.reset (fun t => t.i == 0xFFF && t.pc == 0x202) := by decide

/-- IM3, IM5: the edge is legal, and no flag is written. -/
theorem test_addToIndex :
    runs 0xF21E (State.reset.setI 0xFFF) (fun t => t.i == 0xFFF && t.pc == 0x202) ∧
    runs 0xFF1E ((withRegs 0xF 0x01 0 0).setI 0x100) (fun t => t.i == 0x101 && t.reg 0xF == 1) := by decide

/-- IM4. -/
theorem test_addToIndex_faults : runs 0xF21E ((withRegs 2 0xFF 0 0).setI 0xF80)
    (fun t => faulted .memoryOutOfBounds 0x200 (some 0xF21E) (some 0x107F) t && t.i == 0xF80) := by decide

/-- IM6: only the low nibble of Vx is used. (FONT_BASE is open: the vector's 082 is FONT_BASE + 50 at its 050.) -/
theorem test_fontCharacter :
    (glyphAddr 0x1A).toNat = Config.fontBase.val + 50 ∧ (glyphAddr 0x0F).toNat = Config.fontBase.val + 75 := by
  simp [glyphAddr_toNat]

/-- R46's table: glyph 2, and the last byte of glyph F, wherever FONT_BASE is. -/
theorem test_font_glyphs :
    (fontGlyphs.drop 10).take 5 = [0xF0, 0x10, 0xF0, 0x80, 0xF0] ∧
    Memory.resetByte (Config.fontBase.val + 79) = 0x80 :=
  ⟨by decide, resetByte_font (k := 79) (by decide)⟩

/-- S9, IM8: 255, and the last legal I. -/
theorem test_decimalConversion :
    runs 0xF033 ((withRegs 0 0xFF 1 0).setI 0x400)
      (fun t => t.mem.read 0x400 == 2 && t.mem.read 0x401 == 5 && t.mem.read 0x402 == 5 && t.pc == 0x202) ∧
    runs 0xF033 ((withRegs 0 0x09 1 0).setI 0xFFD)
      (fun t => t.mem.read 0xFFD == 0 && t.mem.read 0xFFE == 0 && t.mem.read 0xFFF == 9) := by decide

/-- IM9: no byte is written. -/
theorem test_decimalConversion_faults : runs 0xF033 ((withRegs 0 0x09 1 0).setI 0xFFE)
    (fun t => faulted .memoryOutOfBounds 0x200 (some 0xF033) (some 0x1000) t && t.mem.read 0xFFF == 0) := by decide

/-- IM11, IM12. -/
theorem test_store :
    runs 0xF255 (((withRegs 0 1 1 2).setReg 2 3).setI 0x400)
      (fun t => t.mem.read 0x400 == 1 && t.mem.read 0x401 == 2 && t.mem.read 0x402 == 3 && t.mem.read 0x403 == 0 &&
        t.i == 0x400) ∧
    runs 0xF055 ((withRegs 0 0xAB 1 0).setI 0xFFF) (fun t => t.mem.read 0xFFF == 0xAB) := by decide

/-- IM12: no byte is written. -/
theorem test_store_faults : runs 0xF155 ((withRegs 0 0xAB 1 0).setI 0xFFF)
    (fun t => faulted .memoryOutOfBounds 0x200 (some 0xF155) (some 0x1000) t && t.mem.read 0xFFF == 0) := by decide

/-- IM13, IM14. -/
theorem test_load :
    runs 0xF265 (withMem 0x400 0x400 [1, 2, 3, 4])
      (fun t => t.reg 0 == 1 && t.reg 1 == 2 && t.reg 2 == 3 && t.reg 3 == 0 && t.i == 0x400) ∧
    runs 0xF065 ((withMem 0x400 0x400 [0x77, 0x88]).setReg 1 9) (fun t => t.reg 0 == 0x77 && t.reg 1 == 9) := by decide

/-- IM15, IM16. -/
theorem test_load_edge :
    runs 0xF365 ((withMem 0xFFD 0xFFD [7]).setReg 0 9)
      (fun t => faulted .memoryOutOfBounds 0x200 (some 0xF365) (some 0x1000) t && t.reg 0 == 9) ∧
    runs 0xFF65 (withMem 0x400 0x40F [0x5C]) (fun t => t.reg 0xF == 0x5C) := by decide

/-! ## Display -/

/-- DI6: the corner, bit 7 at column 3F and bit 0 wrapped to column 6. DI7: a collision. S11: the second
draw of a sprite turns its pixel back off and reports VF = 1 (R244). -/
theorem test_display :
    runs 0xD121 ((withMem 0x300 0x300 [0x81]).setReg 1 0x3F |>.setReg 2 0x1F)
      (fun t => pixelsAre true t.disp [(0x1F, 0x3F), (0x1F, 6)] &&
        pixelsAre false t.disp [(0x1F, 0), (0x1F, 5), (0x1F, 7), (0x1E, 0x3F)] && t.reg 0xF == 0 && t.needsRedraw && t.pc == 0x202) ∧
    runs 0xD121 { withPixel 0 1 with i := 0x300, mem := (withMem 0x300 0x300 [0xC0]).mem }
      (fun t => pixelsAre true t.disp [(0, 0)] && pixelsAre false t.disp [(0, 1)] && t.reg 0xF == 1) ∧
    runs 0xD121 { withPixel 0 1 with i := 0x300, mem := (withMem 0x300 0x300 [0x40]).mem }
      (fun t => pixelsAre false t.disp [(0, 0), (0, 1), (0, 2)] && t.reg 0xF == 1) := by decide

/-- DI5: rows 20 and 21 are clipped. DI12: but their bytes are still checked. -/
theorem test_display_clip :
    runs 0xD123 ((withMem 0x300 0x300 [0x80, 0x80, 0x80]).setReg 2 0x1F) 
      (fun t => pixelsAre true t.disp [(0x1F, 0)] && pixelsAre false t.disp [(0, 0), (1, 0)]) ∧
    runs 0xD12F ((State.reset.setReg 2 0x1F).setI 0xFF2)
      (fun t => faulted .memoryOutOfBounds 0x200 (some 0xD12F) (some 0x1000) t && pixelsAre false t.disp [(0x1F, 0)]) := by decide

/-! ## Timers, input, random -/

/-- TI1. -/
theorem test_setRegisterDelayTimer :
    runs 0xF307 (State.reset.setDelay 0x3C) (fun t => t.reg 3 == 0x3C && t.dt == 0x3C && t.pc == 0x202) := by decide

/-- TI2. -/
theorem test_setDelayTimer :
    runs 0xF315 (withRegs 3 0x05 0 0) (fun t => t.dt == 0x05 && t.st == 0 && t.pc == 0x202) := by decide

/-- TI3. -/
theorem test_setSoundTimer :
    runs 0xF418 (withRegs 4 0x02 0 0) (fun t => t.st == 0x02 && t.outputs.toneOn && t.dt == 0) ∧
    runs 0xF018 (State.reset.setSound 3) (fun t => t.st == 0 && !t.outputs.toneOn) := by decide

/-- TI6. -/
theorem test_getKey : runs 0xF20A { atPc 0x210 with keyLatch := some 3 }
    (fun t => t.mode == .awaitingKey 2 && t.keyLatch == none && t.pc == 0x210) := by decide

/-- TI13, TI14, whatever byte is drawn. -/
theorem test_random :
    exec (.random 3 0x0F) State.reset =
      .next { State.reset with v := State.reset.v.set 3 (Config.randomByte 0 &&& 0x0F), draws := 1, pc := 0x202 } := rfl

/-- TI7: the resume step. -/
theorem test_resume : steps { waiting 2 0x210 with keyLatch := some 7 }
    (fun t => t.reg 2 == 7 && t.keyLatch == none && t.mode == .running && t.pc == 0x212) := by decide

/-- TI10: the resume step at FFE faults, and Vx is unchanged. -/
theorem test_resume_faults : steps { waiting 0 0xFFE with keyLatch := some 1 }
    (fun t => faulted .memoryOutOfBounds 0xFFE (some 0xF00A) (some 0x1000) t && t.reg 0 == 0) := by decide

/-! ## Fetch, faults, the timer and the host -/

/-- FE1: no word in the record. -/
theorem test_fetch_past_memory : steps (atPc 0xFFF) (faulted .memoryOutOfBounds 0xFFF none (some 0x1000)) := by decide

/-- LD3: after the load of the empty ROM the first step meets the word 0000. -/
theorem test_first_step_from_reset :
    steps State.reset (faulted .unrecognizedInstruction 0x200 (some 0x0000) (some 0x0000)) := by decide

/-- TI4, and TI12: timers count during a key wait. -/
theorem test_tick :
    steps { State.reset with agenda := [.tick], dt := 1, st := 2 } (fun t => t.dt == 0 && t.st == 1 && t.mode == .running) ∧
    steps { waiting 0 0x200 with agenda := [.tick], dt := 3 } (fun t => t.dt == 2 && t.mode == .awaitingKey 0) := by decide

/-- TI5: frozen in a terminal mode. -/
theorem test_tick_terminal :
    steps { State.reset with mode := .stopped, agenda := [.tick], dt := 3 } (fun t => t.dt == 3 && t.mode == .stopped) := by
  decide

/-- TI8, TI9: edge-triggered, and the first edge wins. -/
theorem test_key_latch :
    steps { holding 3 (waiting 3 0x200) with agenda := [.keyDown 3] } (fun t => t.keyLatch == none) ∧
    steps { waiting 1 0x200 with agenda := [.keyDown 4] } (fun t => t.keyLatch == some 4 && t.key[4]) ∧
    steps { waiting 1 0x200 with agenda := [.keyDown 9], keyLatch := some 4 } (fun t => t.keyLatch == some 4 && t.key[9]) := by
  decide

/-- TI11. -/
theorem test_stop : steps { waiting 0 0x200 with agenda := [.stop], keyLatch := some 1 }
    (fun t => t.mode == .stopped && t.keyLatch == none && t.reg 0 == 0 && t.pc == 0x200) := by decide

/-- R303, and I16: not taken once the run has ended. -/
theorem test_ackRedraw :
    steps { State.reset with needsRedraw := true, agenda := [.ackRedraw] } (fun t => !t.needsRedraw) ∧
    steps { State.reset with mode := .stopped, needsRedraw := true, agenda := [.ackRedraw] } (fun t => t.needsRedraw) := by
  decide

/-- R288 with I16: a key event is not taken in a terminal mode. -/
theorem test_key_terminal :
    steps { State.reset with mode := .halted .stackOverflow, agenda := [.keyDown 4] } (fun t => !t.key[4]) ∧
    steps { holding 4 State.reset with mode := .stopped, agenda := [.keyUp 4] } (fun t => t.key[4]) := by decide

/-- R320: a load from Halted starts over. -/
theorem test_load_rom :
    steps { State.reset with mode := .halted .stackOverflow, v := State.reset.v.set 3 9, agenda := [.load [0x12, 0x00]] }
      (fun t => t.mode == .running && t.reg 3 == 0 && t.pc == 0x200 && t.fetch == some 0x1200) := by decide

/-- LD2: 3585 bytes do not fit, and none is copied. -/
theorem test_load_too_large : (State.reset.loadRom (List.replicate 3585 0xFF)).mem = [] ∧
    (State.reset.loadRom (List.replicate 3585 0xFF)).faultRecord =
      some { kind := .romTooLarge, pc := 0x200, word := none, value := some 0xE01 } := by
  rw [loadRom_tooLarge State.reset (by rw [List.length_replicate]; decide), List.length_replicate]
  exact ⟨rfl, rfl⟩

/-- R288, R327: the core has no step in a terminal mode. -/
theorem test_terminal :
    step { State.reset with mode := .halted .romTooLarge } = .fault (.halted .romTooLarge) ∧
    step { State.reset with mode := .stopped } = .refused .stopped := ⟨rfl, rfl⟩

/-- R44, R302: the snapshot is row-major, entry r * 64 + c. -/
theorem test_outputs : (withPixel 2 3).outputs.display[131]? = some true ∧ (withPixel 2 3).outputs.display[130]? = some false := by
  constructor <;> rfl

/-! ## Witnesses: for each obligation with hypotheses, concrete states and operands that meet them, clause by clause at the
boundary values -/

/-- DecodeOfEncodeIsTheInstruction. -/
theorem witness_decodeOfEncode : (Instr.display 0xF 0 0xF).wellFormed = true ∧ (Instr.jump 0).wellFormed = true := by decide

/-- EncodeOfDecodeIsTheWordButForUnusedBits, OperandsAreTheFieldsOfTheWord and LowNibbleOfGroups5And9IsIgnored: a word of
another group, one of group 5 and one of group 9. -/
theorem witness_decodedWords :
    decode 0xD125 = .ok (.display 1 2 5) ∧ (0xD125#16).toNat / 4096 = 13 ∧
    decode 0x512F = .ok (.skipRegisterEqual 1 2) ∧ (0x512F#16).toNat / 4096 = 5 ∧
    decode 0x9121 = .ok (.skipRegisterNotEqual 1 2) ∧ (0x9121#16).toNat / 4096 = 9 :=
  ⟨rfl, by decide, rfl, by decide, rfl, by decide⟩

/-- ExactlyTheListedWordsAreIllegal: both clauses. -/
theorem witness_legalWords : legalWord 0x812D = false ∧ legalWord 0x812E = true := by decide

/-- DecoderFollowsTheOpcodeTable: the first and the last row. -/
theorem witness_tableRows :
    (⟨"ClearScreen", 0x00E0, 0xFFFF⟩ : OpcodeRow) ∈ opcodeTable ∧ (⟨"Load", 0xF065, 0xF0FF⟩ : OpcodeRow) ∈ opcodeTable := by
  decide

/-- StepRunsTheDecodedInstruction: the last address a word fits at, with the core queued. -/
theorem witness_stepRuns :
    let s := { (atPc 0xFFE).withFetchWord 16 0x6A2A with agenda := [.core, .tick] }
    s.mode = .running ∧ s.agenda.headD .core = .core ∧ s.pc.toNat + 1 ≤ 0xFFF ∧
      decode (s.mem.read s.pc.toNat ++ s.mem.read (s.pc.toNat + 1)) = .ok (.set 0xA 0x2A) :=
  ⟨rfl, rfl, by decide, rfl⟩

/-- FetchPastMemoryFaults. -/
theorem witness_fetchPastMemory :
    (atPc 0xFFF).mode = .running ∧ 0xFFF < (atPc 0xFFF).pc.toNat + 1 := by decide

/-- IllegalWordHalts: an illegal word at the last address it fits at. -/
theorem witness_illegalWord :
    let s := (atPc 0xFFE).withFetchWord 16 0x8128
    s.mode = .running ∧ s.pc.toNat + 1 ≤ 0xFFF ∧
      decode (s.mem.read s.pc.toNat ++ s.mem.read (s.pc.toNat + 1)) = .error (.unrecognizedInstruction 0x8128) :=
  ⟨rfl, by decide, rfl⟩

/-- FaultCommitsNothingElse: a core step that faults from a live mode. -/
theorem witness_faultStep :
    State.reset.mode.live = true ∧
      ∃ t, agentStep .core State.reset = .next t ∧ t.mode = .halted .unrecognizedInstruction := ⟨rfl, _, rfl, rfl⟩

/-- OperationsRaiseOnlyTheirKinds: a state for each of the four kinds. -/
theorem witness_raises :
    (∃ t, exec (.callSubroutine 0x300) { State.reset with sp := 16 } = .next t ∧ t.mode = .halted .stackOverflow) ∧
    (∃ t, exec .ret State.reset = .next t ∧ t.mode = .halted .stackUnderflow) ∧
    (∃ t, exec (.skipIfPressed 1) (withRegs 1 0x10 0 0) = .next t ∧ t.mode = .halted .invalidKeyIndex) ∧
    (∃ t, exec (.store 1) (State.reset.setI 0xFFF) = .next t ∧ t.mode = .halted .memoryOutOfBounds) :=
  ⟨⟨_, rfl, rfl⟩, ⟨_, rfl, rfl⟩, ⟨_, rfl, rfl⟩, ⟨_, rfl, rfl⟩⟩

/-- The next-PC check of every instruction that picks pc + 2 or pc + 4: the last PC on either side. -/
theorem witness_nextPc :
    (atPc 0xFFD).pc.toNat + 2 ≤ 0xFFF ∧ 0xFFF < (atPc 0xFFE).pc.toNat + 2 ∧
    (atPc 0xFFB).pc.toNat + 4 ≤ 0xFFF ∧ 0xFFF < (atPc 0xFFC).pc.toNat + 4 := by decide

/-- CallPushesTheReturnAddress: the last depth that pushes, and the full stack. -/
theorem witness_call :
    ({ State.reset with sp := 15 } : State).sp.val < 16 ∧ ({ State.reset with sp := 16 } : State).sp.val = 16 := by decide

/-- ReturnPopsIntoPc: an empty stack, a full one whose top entry is the largest legal address, and one whose is 0x1000. -/
theorem witness_return :
    State.reset.sp.val = 0 ∧
    (15 + 1 = ({ State.reset with sp := 16 } : State).sp.val ∧ (State.reset.stack.set 15 0xFFF)[(15 : Fin 16)].toNat ≤ 0xFFF) ∧
    0xFFF < (State.reset.stack.set 15 0x1000)[(15 : Fin 16)].toNat := by decide

/-- CallThenReturnResumesAfterTheCall. -/
theorem witness_callThenReturn :
    ({ atPc 0xFFD with sp := 15 } : State).sp.val < 16 ∧ ({ atPc 0xFFD with sp := 15 } : State).pc.toNat + 2 ≤ 0xFFF := by decide

/-- JumpWithOffsetAddsV0. -/
theorem witness_jumpWithOffset :
    (0xFFF#12).toNat + (withRegs 0 0 1 0).v[(0 : Reg)].toNat ≤ 0xFFF ∧
    0xFFF < (0xFFF#12).toNat + (withRegs 0 1 1 0).v[(0 : Reg)].toNat := by decide

/-- ComparingSkipsCompare: the condition holds in one state and not in another, for each of the four. -/
theorem witness_comparingSkips :
    (withRegs 1 7 2 7).v[(1 : Reg)] = 7 ∧ (withRegs 1 7 2 8).v[(1 : Reg)] ≠ 8 ∧
    (withRegs 1 7 2 7).v[(1 : Reg)] = (withRegs 1 7 2 7).v[(2 : Reg)] ∧
    (withRegs 1 7 2 8).v[(1 : Reg)] ≠ (withRegs 1 7 2 8).v[(2 : Reg)] := by decide

/-- KeySkipsReadTheKeypad: the last key, pressed and not, and the first index that is no key. -/
theorem witness_keySkips :
    (withRegs 1 0x0F 0 0).v[(1 : Reg)].toNat = (15 : Key).val ∧
    (holding 15 State.reset).key[(15 : Key)] = true ∧ State.reset.key[(15 : Key)] = false ∧
    0x0F < (withRegs 1 0x10 0 0).v[(1 : Reg)].toNat := by decide

/-- AddAndSubtractSetCarryAndNoBorrow: each flag at its boundary, with x other than F, and with x = F. -/
theorem witness_carryAndNoBorrow :
    255 < (withRegs 1 0xFF 2 1).v[(1 : Reg)].toNat + (withRegs 1 0xFF 2 1).v[(2 : Reg)].toNat ∧
    ¬ 255 < (withRegs 1 0xFF 2 0).v[(1 : Reg)].toNat + (withRegs 1 0xFF 2 0).v[(2 : Reg)].toNat ∧
    (withRegs 1 7 2 7).v[(2 : Reg)].toNat ≤ (withRegs 1 7 2 7).v[(1 : Reg)].toNat ∧
    ¬ (withRegs 1 6 2 7).v[(2 : Reg)].toNat ≤ (withRegs 1 6 2 7).v[(1 : Reg)].toNat ∧ (1 : Reg) ≠ 0xF ∧
    ((2 : Reg) ≠ 1 ∧ (2 : Reg) ≠ 0xF) := by decide

/-- ShiftsTakeVyAndSetTheBitShiftedOut: both values of both bits. -/
theorem witness_shifts :
    (withRegs 2 1 0 0).v[(2 : Reg)].toNat % 2 = 1 ∧ ¬ (withRegs 2 0xFE 0 0).v[(2 : Reg)].toNat % 2 = 1 ∧
    128 ≤ (withRegs 2 0x80 0 0).v[(2 : Reg)].toNat ∧ ¬ 128 ≤ (withRegs 2 0x7F 0 0).v[(2 : Reg)].toNat := by decide

/-- AddToIndexAddsOrFaults. -/
theorem witness_addToIndex :
    ((withRegs 1 0 0 0).setI 0xFFF).i.toNat + ((withRegs 1 0 0 0).setI 0xFFF).v[(1 : Reg)].toNat ≤ 0xFFF ∧
    0xFFF < ((withRegs 1 1 0 0).setI 0xFFF).i.toNat + ((withRegs 1 1 0 0).setI 0xFFF).v[(1 : Reg)].toNat := by decide

/-- DecimalConversionWritesThreeDigits: the last legal I at the last PC that goes on, the same I where the next PC faults, and
the first illegal I; an address below and one above the stored bytes. -/
theorem witness_decimalConversion :
    (((atPc 0xFFD).setI 0xFFD).i.toNat + 2 ≤ 0xFFF ∧ ((atPc 0xFFD).setI 0xFFD).pc.toNat + 2 ≤ 0xFFF) ∧
    (((atPc 0xFFE).setI 0xFFD).i.toNat + 2 ≤ 0xFFF ∧ 0xFFF < ((atPc 0xFFE).setI 0xFFD).pc.toNat + 2) ∧
    0xFFF < (State.reset.setI 0xFFE).i.toNat + 2 ∧
    (0x3FF < (State.reset.setI 0x400).i.toNat ∧ (State.reset.setI 0x400).i.toNat + 2 < 0x403) := by decide

/-- StoreWritesV0ToVx and LoadReadsIntoV0ToVx: x = F at the last legal I, the next PC faulting, the first illegal I; a register
at and one above x; an address below and one above the bytes of x = 2. -/
theorem witness_storeLoad :
    (((atPc 0xFFD).setI 0xFF0).i.toNat + (15 : Reg).val ≤ 0xFFF ∧ ((atPc 0xFFD).setI 0xFF0).pc.toNat + 2 ≤ 0xFFF) ∧
    (((atPc 0xFFE).setI 0xFF0).i.toNat + (15 : Reg).val ≤ 0xFFF ∧ 0xFFF < ((atPc 0xFFE).setI 0xFF0).pc.toNat + 2) ∧
    0xFFF < (State.reset.setI 0xFF1).i.toNat + (15 : Reg).val ∧ ((2 : Reg) ≤ 2 ∧ (2 : Reg) < 3) ∧
    (0x3FF < (State.reset.setI 0x400).i.toNat ∧ (State.reset.setI 0x400).i.toNat + (2 : Reg).val < 0x403) := by decide

/-- MemoryWriteSetsItsCellOnly. -/
theorem witness_memoryWrite : (0x401 : Nat) ≠ 0x400 := by decide

/-- FetchSeesTheStoreBeforeIt: a Store at 0x200 that overwrites the instruction after it. -/
theorem witness_fetchSeesTheStore :
    let s := (withRegs 0 0x12 1 0x0A).setI 0x202
    s.mode = .running ∧ ∃ t, exec (.store 1) s = .next t ∧ t.mode = .running ∧
      t.pc.toNat = s.i.toNat + (0 : Reg).val ∧ (0 : Reg).val + 1 ≤ (1 : Reg).val :=
  ⟨rfl, _, rfl, rfl, by decide, by decide⟩

/-- DisplayXorsTheSprite: no rows, the last byte of memory, the first byte outside; and at I =
0x300 a sprite with a collision and one without. -/
theorem witness_display :
    ((0 : Height).val = 0 ∧ (atPc 0xFFD).pc.toNat + 2 ≤ 0xFFF) ∧
    (State.reset.setI 0xFFF).i.toNat + (1 : Height).val - 1 ≤ 0xFFF ∧
    ((2 : Height).val ≠ 0 ∧ 0xFFF < (State.reset.setI 0xFFF).i.toNat + (2 : Height).val - 1) ∧
    0xFFF < (atPc 0xFFE).pc.toNat + 2 ∧
    ((withPixel 0 1).disp[(0 : Fin 32)][(1 : Fin 64)] = true ∧
      spriteLit (withMem 0x300 0x300 [0xC0]) (State.reset.v[(0 : Reg)].toNat % 64) (State.reset.v[(1 : Reg)].toNat % 32) 1
        (0 : Fin 32) (1 : Fin 64) = true) := by decide

/-- DisplayXorsTheSprite, no collision: on an empty screen no pixel of any sprite is turned off. -/
theorem witness_display_no_collision (r : Fin 32) (c : Fin 64) : State.reset.disp[r][c] = false := by
  simp [State.reset]

/-- DrawingTwiceRestoresTheDisplay: the state between two draws of one pixel, itself the next state of the first. -/
theorem witness_drawingTwice :
    let s := withMem 0x300 0x300 [0x80]
    ∃ u, exec (.display 0 1 1) s = .next u ∧ s.i.toNat + (1 : Height).val - 1 ≤ 0xFFF ∧ s.pc.toNat + 2 ≤ 0xFFF ∧
      u.pc.toNat + 2 ≤ 0xFFF ∧ u.v[(0 : Reg)].toNat % 64 = s.v[(0 : Reg)].toNat % 64 ∧
      u.v[(1 : Reg)].toNat % 32 = s.v[(1 : Reg)].toNat % 32 ∧ u.i = s.i ∧ (∀ a, u.mem.read a = s.mem.read a) ∧
      (∀ t, exec (.display 0 1 1) s = .next t → u.disp = t.disp) ∧
      (s.disp[(0 : Fin 32)][(0 : Fin 64)] = false ∧
        spriteLit s (s.v[(0 : Reg)].toNat % 64) (s.v[(1 : Reg)].toNat % 32) 1 (0 : Fin 32) (0 : Fin 64) = true) :=
  ⟨_, rfl, by decide, by decide, by decide, by decide, by decide, rfl, fun _ => rfl,
    fun _ h => congrArg State.disp (Host.Outcome.next.inj h), by decide, by decide⟩

/-- ResumeWritesTheLatchedKey: both clauses. -/
theorem witness_resume :
    let s := { waiting 2 0xFFD with keyLatch := some 7 }
    let u := { waiting 2 0xFFE with keyLatch := some 7 }
    (s.mode = .awaitingKey 2 ∧ s.keyLatch = some 7 ∧ s.pc.toNat + 2 ≤ 0xFFF) ∧
    (u.mode = .awaitingKey 2 ∧ u.keyLatch = some 7 ∧ 0xFFF < u.pc.toNat + 2) := by decide

/-- WaitWithoutAKeyHolds. -/
theorem witness_wait : (waiting 2 0x200).mode = .awaitingKey 2 ∧ (waiting 2 0x200).keyLatch = none := by decide

/-- OnlyListedRegistersAreWritten, OnlyListedRegistersAreRead and EachPieceOfStateHasItsWriters. -/
theorem witness_unlistedRegister :
    readsReg (.add 3 1) 4 = false ∧ writesReg (.add 3 1) 4 = false ∧ ∃ t, exec (.add 3 1) State.reset = .next t :=
  ⟨rfl, rfl, _, rfl⟩

/-- EachPieceOfStateHasItsWriters: each premise is met by an instruction that has the effect. -/
theorem witness_writers :
    (∃ t, exec (.setIndex 5) State.reset = .next t ∧ t.i ≠ State.reset.i) ∧
    (∃ t, exec (.callSubroutine 5) State.reset = .next t ∧ t.stack ≠ State.reset.stack ∧ t.sp ≠ State.reset.sp) ∧
    (∃ t, exec (.store 0) ((withRegs 0 9 1 0).setI 0x400) = .next t ∧ t.mem.read 0x400 ≠ State.reset.mem.read 0x400) ∧
    (∃ t, exec (.setDelayTimer 0) (withRegs 0 9 1 0) = .next t ∧ t.dt ≠ State.reset.dt) ∧
    (∃ t, exec (.setSoundTimer 0) (withRegs 0 9 1 0) = .next t ∧ t.st ≠ State.reset.st) ∧
    (∃ t, exec .clearScreen State.reset = .next t ∧ t.needsRedraw ≠ State.reset.needsRedraw) ∧
    (∃ t, exec (.getKey 0) State.reset = .next t ∧ t.mode = .awaitingKey 0 ∧ t.mode ≠ State.reset.mode) ∧
    (∃ t, exec (.random 0 1) State.reset = .next t ∧ t.draws ≠ State.reset.draws) :=
  ⟨⟨_, rfl, by decide⟩, ⟨_, rfl, by decide, by decide⟩, ⟨_, rfl, by decide⟩, ⟨_, rfl, by decide⟩, ⟨_, rfl, by decide⟩,
    ⟨_, rfl, by decide⟩, ⟨_, rfl, by decide, by decide⟩, ⟨_, rfl, by decide⟩⟩

/-- MemoryChangesOnlyByStoresAndLoads: a Store's step and a load's. -/
theorem witness_memoryChanges :
    (∃ t, step (((withRegs 0 9 1 0).setI 0x400).withFetchWord 16 0xF055) = .next t ∧
      t.mem.read 0x400 ≠ (((withRegs 0 9 1 0).setI 0x400).withFetchWord 16 0xF055).mem.read 0x400) ∧
    (∃ t, step { State.reset with agenda := [.load [7]] } = .next t ∧ t.mem.read 0x200 ≠ State.reset.mem.read 0x200) :=
  ⟨⟨_, rfl, by decide⟩, ⟨_, rfl, by decide⟩⟩

/-- EveryStepKeepsTheInvariant: the reset state meets it, and steps. -/
theorem witness_invariant : State.reset.Inv ∧ ∃ t, step State.reset = .next t := by
  refine ⟨⟨by decide, by decide, rfl, ?_, ?_, ?_, ?_⟩, _, rfl⟩ <;> simp [State.reset]

/-- A key wait at 0x200 meets the invariant too, so its clause about the wait is met by more than an empty case. -/
theorem witness_invariant_wait : (waiting 2 0x200).Inv where
  pcInRange := by decide
  iInRange := by decide
  memCanonical := by decide
  stackInRange := by simp [waiting, atPc, State.setPc, State.reset]
  latchOnlyInWait := by simp [waiting, atPc, State.setPc, State.reset]
  recordIffHalted := by simp [waiting, atPc, State.setPc, State.reset]
  waitAtGetKey x h := by
    have : x = 2 := (ExecMode.awaitingKey.inj h).symm
    subst this
    exact ⟨0xF20A, by decide, rfl⟩

/-- TickCountsBothTimersDown, with one timer Counting and the other Idle, and TicksDrainATimerToZero. -/
theorem witness_tick :
    let s := { State.reset with dt := 1 }
    s.mode.live = true ∧ s.dt = 1 ∧ s.st = 0 := by decide

/-- The run of a wait in which only the timer moves: one tick takes DT from 1 to 0. -/
def quietWait (n : Nat) : State := { waiting 2 0x200 with dt := if n = 0 then 1 else 0 }

/-- TimersRunOutDuringAnUnansweredWait: a fair run in which the wait is never answered. -/
theorem witness_quietWait :
    IsRun quietWait (fun _ => .tick) ∧ Fair quietWait (fun _ => .tick) ∧ ∀ n, ∃ x, (quietWait n).mode = .awaitingKey x := by
  refine ⟨fun n => ?_, ⟨fun n _ => ⟨n, le_refl n, rfl⟩, fun n h => ?_⟩, fun n => ⟨2, rfl⟩⟩
  · rcases n with _ | n
    · rfl
    · rfl
  · rcases h n (le_refl n) with h | ⟨-, h⟩
    · cases h
    · exact absurd rfl h

/-- KeyEventsPressReleaseAndLatch: the premises of each clause. -/
theorem witness_keyEvents :
    let s := waiting 2 0x200
    s.mode.live = true ∧ State.reset.mode.live = true ∧ ExecMode.stopped.live = false ∧
    (s.key[(15 : Key)] = false ∧ s.mode = .awaitingKey 2 ∧ s.keyLatch = none) ∧
    (holding 15 s).key[(15 : Key)] = true ∧ { s with keyLatch := some 3 }.keyLatch ≠ none ∧
    (∀ x, State.reset.mode ≠ .awaitingKey x) := by decide

/-- KeypadUpdateInAnyOrderReachesTheTarget: an order of all sixteen keys, a live run, a wait with no key latched, an ended
run. -/
theorem witness_keypadUpdate :
    allRegs.reverse.Nodup ∧ (∀ k : Key, k ∈ allRegs.reverse) ∧ (waiting 2 0x200).mode = .awaitingKey 2 ∧
      (waiting 2 0x200).keyLatch = none ∧ State.reset.mode.live = true ∧ ExecMode.stopped.live = false := by decide

/-- AcknowledgeAndStop: a live run and an ended one. -/
theorem witness_acknowledgeAndStop : State.reset.mode.live = true ∧ (ExecMode.halted .stackOverflow).live = false := by decide

/-- TerminalModesAreLeftByLoadOnly: in an ended run the host releases a key, and the timer ticks. -/
theorem witness_terminal :
    let s := { State.reset with mode := .halted .stackOverflow }
    s.mode.live = false ∧ (∃ t, agentStep (.keyUp 3) s = .next t) ∧ (∀ rom, AgentStep.keyUp 3 ≠ .load rom) ∧
      (∃ t, agentStep .tick s = .next t) ∧ (∀ rom, AgentStep.tick ≠ .load rom) :=
  ⟨rfl, ⟨_, rfl⟩, fun _ h => (by cases h), ⟨_, rfl⟩, fun _ h => (by cases h)⟩

/-- StepIsTheTurnOfOneAgent: nothing queued, and a queued tick. -/
theorem witness_turn :
    State.reset.agenda = [] ∧ ({ State.reset with agenda := [.tick] } : State).agenda = .tick :: [] := by decide

/-- LoadInitialisesTheMachine: the longest ROM that fits. -/
theorem witness_load : (List.replicate 3584 (0xFF : Byte)).length ≤ 3584 := by rw [List.length_replicate]

/-- LoadInitialisesTheMachine and ResetIsTheLoadOfTheEmptyRom, the clauses over memory: the last byte of a 2-byte ROM and of the
font, the first address after each, and the last below 0x200. -/
theorem witness_loadedMemory :
    1 < ([0x12, 0x00] : List Byte).length ∧ 0x200 + ([0x12, 0x00] : List Byte).length ≤ 0x202 ∧ 79 < 80 ∧
    (Config.fontBase.val + 80 ≤ 0x200 ∧ ¬ Config.fontBase.val + 80 ≤ Config.fontBase.val + 79) ∧
    (Config.fontBase.val = 432 ∨ Config.fontBase.val + 80 ≤ 0x1FF) := by
  have := Config.fontBase.isLt
  refine ⟨by decide, by decide, by decide, ⟨by omega, by omega⟩, by omega⟩

/-- LoadOfTooLargeARomHalts: the shortest ROM that does not fit; its length fits the record. -/
theorem witness_loadTooLarge :
    3584 < (List.replicate 3585 (0xFF : Byte)).length ∧ (List.replicate 3585 (0xFF : Byte)).length < 65536 := by
  rw [List.length_replicate]; decide

/-- ModeRecordLatchAndPcHaveTheirWriters: each premise is met, the latch's by a state that a wait left it in. -/
theorem witness_controlWriters :
    (∃ t, exec (.getKey 2) { State.reset with keyLatch := some 3 } = .next t ∧ t.mode ≠ State.reset.mode ∧
      t.keyLatch ≠ some 3) ∧
    (∃ t, exec .ret State.reset = .next t ∧ t.mode ≠ State.reset.mode ∧ t.faultRecord ≠ State.reset.faultRecord) ∧
    (∃ t, exec (.jump 0x300) State.reset = .next t ∧ t.pc ≠ State.reset.pc) :=
  ⟨⟨_, rfl, by decide, by decide⟩, ⟨_, rfl, by decide, by decide⟩, ⟨_, rfl, by decide⟩⟩

end Sys2Proof.Tests
end

section
/-! Proofs of the statements of 00_scope.md. -/

namespace Sys2Proof.Machine

/-- The step with nothing queued: the core's, which leaves the empty agenda as it is. -/
theorem step_nil {s : State} (h : s.agenda = []) : step s = agentStep .core s := by
  rw [step_eq, turn_nil h, dequeue_nil h]

/-- Settles O8: the agenda is empty, or it has a first agent. -/
theorem stepIsTheTurnOfOneAgent : Obligations.StepIsTheTurnOfOneAgent :=
  fun _ => ⟨step_nil, fun _ _ => step_cons⟩

end Sys2Proof.Machine
end

section
/-! Proofs of the statements of 10_state.md: the frame of an instruction's writes, the invariant, and which registers matter. -/

namespace Sys2Proof.Machine

/-! ## The frame of an instruction's writes (R33, R37, R41 to R44, R53, R81) -/

/-- The pieces of state the writes of an instruction can touch, with the bounds their values keep; every other piece is as
before. `Writes.frame` ties it to the instructions' meanings. -/
inductive WriteFrame : Instr → State → State → Prop where
  | registers (i : Instr) (s : State) (v : Vector Byte 16) : WriteFrame i s { s with v := v }
  | draw (x : Reg) (nn : Byte) (s : State) (v : Vector Byte 16) :
      WriteFrame (.random x nn) s { s with v := v, draws := s.draws + 1 }
  | index (i : Instr) (s : State) (a : Word)
      (hi : ∃ nnn x, i = .setIndex nnn ∨ i = .addToIndex x ∨ i = .fontCharacter x) (ha : a.toNat ≤ 0xFFF) :
      WriteFrame i s { s with i := a }
  | call (nnn : Addr12) (s : State) (h : s.sp.val < 16) :
      WriteFrame (.callSubroutine nnn) s
        { s with stack := s.stack.set s.sp.val (BitVec.ofNat 16 (s.pc.toNat + 2)), sp := ⟨s.sp.val + 1, by omega⟩ }
  | ret (s : State) (sp : Fin 17) (h : sp.val ≤ s.sp.val) : WriteFrame .ret s { s with sp := sp }
  | memory (i : Instr) (s : State) (bytes : List Byte) (hi : ∃ x, i = .decimalConversion x ∨ i = .store x)
      (h : s.i.toNat + bytes.length ≤ 0x1000) :
      WriteFrame i s { s with mem := s.mem.writeList s.i.toNat bytes }
  | delay (x : Reg) (s : State) (b : Byte) : WriteFrame (.setDelayTimer x) s { s with dt := b }
  | sound (x : Reg) (s : State) (b : Byte) : WriteFrame (.setSoundTimer x) s { s with st := b }
  | screen (i : Instr) (s : State) (v : Vector Byte 16) (d : Screen)
      (hi : i = .clearScreen ∨ ∃ x y n, i = .display x y n) :
      WriteFrame i s { s with v := v, disp := d, needsRedraw := true }

variable {i : Instr} {s new t : State}

theorem Writes.frame (h : Writes i s new) : WriteFrame i s new := by
  cases i with
  | clearScreen => cases h; exact .screen _ s _ _ (.inl rfl)
  | display x y n =>
    obtain ⟨out, -, rfl⟩ := h
    exact .screen _ s _ _ (.inr ⟨x, y, n, rfl⟩)
  | ret =>
    obtain ⟨a, h⟩ := h
    obtain ⟨-, hsp, hnew, -⟩ := pop_some h
    rw [hnew]; exact .ret s _ (by omega)
  | callSubroutine nnn =>
    have hlt : s.sp.val < 16 := (push_some h).1
    cases (push_of_lt _ hlt).symm.trans h
    exact .call nnn s hlt
  | setIndex nnn => cases h; exact .index _ s _ ⟨nnn, 0, .inl rfl⟩ (addrOperand_le nnn)
  | addToIndex x =>
    obtain ⟨hle, rfl⟩ := h
    exact .index _ s _ ⟨0, x, .inr (.inl rfl)⟩ (by rw [BitVec.toNat_ofNat]; omega)
  | fontCharacter x =>
    cases h
    have := glyphAddr_lt (s.reg x)
    exact .index _ s _ ⟨0, x, .inr (.inr rfl)⟩ (by omega)
  | decimalConversion x =>
    obtain ⟨hle, rfl⟩ := h
    exact .memory _ s _ ⟨x, .inl rfl⟩ (by simp only [decimalDigits, List.length_cons, List.length_nil]; omega)
  | store x =>
    obtain ⟨hle, rfl⟩ := h
    exact .memory _ s _ ⟨x, .inr rfl⟩ (by rw [List.length_map, regsUpTo_length]; omega)
  | load x =>
    obtain ⟨-, rfl⟩ := h
    rw [loadRegs_eq]; exact .registers _ s _
  | setDelayTimer x => cases h; exact .delay x s _
  | setSoundTimer x => cases h; exact .sound x s _
  | random x nn => cases h; exact .draw x nn s _
  | getKey x => exact h.elim
  | _ => cases h; exact .registers _ s _

/-- Settles O43: after a fault or GetKey by the fields they leave alone, and else by the frame of the writes. -/
theorem eachPieceOfStateHasItsWriters : Obligations.EachPieceOfStateHasItsWriters := by
  intro i s t h
  rcases exec_cases h with ⟨k, value, -, rfl⟩ | ⟨x, rfl, rfl⟩ | ⟨new, n, -, rfl, hw⟩
  · simp
  · simp
  · cases hw.frame with
    | registers => simp
    | draw => simp
    | index _ _ _ hi => simpa using fun _ => hi
    | call => simp
    | ret => simp
    | memory _ _ _ hi => simpa using fun _ _ => hi
    | delay => simp
    | sound => simp
    | screen _ _ _ _ hi => simpa using fun _ => hi

/-- Settles O58: a fault and GetKey keep PC, and no other write touches mode, record or latch. -/
theorem modeRecordLatchAndPcHaveTheirWriters : Obligations.ModeRecordLatchAndPcHaveTheirWriters := by
  intro i s t h
  rcases exec_cases h with ⟨k, value, -, rfl⟩ | ⟨x, rfl, rfl⟩ | ⟨new, n, -, rfl, hw⟩
  · simp
  · simp
  · obtain ⟨hmode, hrecord, hlatch, -, -⟩ := hw.control
    simp [hmode, hrecord, hlatch]

/-! ## Steps of the invariant -/

/-- An instruction writes PC in its commit only (R36). -/
theorem Writes.pc (hw : Writes i s new) : new.pc = s.pc := by
  cases hw.frame <;> rfl

theorem Writes.index_le (hw : Writes i s new) (hs : s.i.toNat ≤ 0xFFF) : new.i.toNat ≤ 0xFFF := by
  cases hw.frame with
  | index _ _ _ _ ha => exact ha
  | _ => exact hs

theorem Writes.mem_wf (hw : Writes i s new) (hs : s.mem.wf = true) : new.mem.wf = true := by
  cases hw.frame with
  | memory _ _ bytes _ hle => exact Memory.writeList_wf bytes hs hle
  | _ => exact hs

/-- R143: a fetchable instruction pushes at most 0x1000. -/
theorem Writes.stack_le (hw : Writes i s new) (hpc : s.pc.toNat + 1 ≤ 0xFFF)
    (hs : ∀ k : Fin 16, k.val < s.sp.val → s.stack[k].toNat ≤ 0x1000) (k : Fin 16) (hk : k.val < new.sp.val) :
    new.stack[k].toNat ≤ 0x1000 := by
  cases hw.frame with
  | call _ _ hlt =>
    simp only [Fin.getElem_fin, Vector.getElem_set]
    split_ifs with hks
    · rw [BitVec.toNat_ofNat]; omega
    · exact hs k (by simp only at hk; omega)
  | ret _ _ hle => exact hs k (Nat.lt_of_lt_of_le hk hle)
  | _ => exact hs k hk

namespace State.Inv

/-- The pieces of state the invariant does not speak of. -/
theorem frame (hs : s.Inv) (v : Vector Byte 16) (dt st : Byte) (disp : Screen) (key : Vector Bool 16) (needsRedraw : Bool)
    (agenda : List AgentStep) (draws : Nat) :
    ({ s with v := v, dt := dt, st := st, disp := disp, key := key, needsRedraw := needsRedraw, agenda := agenda,
              draws := draws } : State).Inv :=
  ⟨hs.pcInRange, hs.iInRange, hs.memCanonical, hs.stackInRange, hs.latchOnlyInWait, hs.recordIffHalted, hs.waitAtGetKey⟩

theorem faultRecord_none (hs : s.Inv) (hl : s.mode.live = true) : s.faultRecord = none := by
  by_contra hne
  obtain ⟨r, hr⟩ := Option.ne_none_iff_exists'.1 hne
  rw [(hs.recordIffHalted r.kind).2 ⟨r, hr, rfl⟩] at hl
  cases hl

/-- Without a fault the mode changes while the latch is emptied (R50), to a wait only at its GetKey (R263). -/
theorem change_mode (hs : s.Inv) (hl : s.mode.live = true) {m : ExecMode} (hm : ∀ k, m ≠ .halted k)
    (hwait : ∀ x, m = .awaitingKey x → ∃ w, s.fetch = some w ∧ decode w = .ok (.getKey x)) :
    ({ s with mode := m, keyLatch := none } : State).Inv where
  pcInRange := hs.pcInRange
  iInRange := hs.iInRange
  memCanonical := hs.memCanonical
  stackInRange := hs.stackInRange
  latchOnlyInWait hne := absurd rfl hne
  recordIffHalted k := by simp [hm k, hs.faultRecord_none hl]
  waitAtGetKey := hwait

/-- A fault entry writes a record of the mode's kind (R283). -/
theorem halt (hs : s.Inv) (r : FaultRecord) :
    ({ s with mode := .halted r.kind, faultRecord := some r, keyLatch := none } : State).Inv where
  pcInRange := hs.pcInRange
  iInRange := hs.iInRange
  memCanonical := hs.memCanonical
  stackInRange := hs.stackInRange
  latchOnlyInWait hne := absurd rfl hne
  recordIffHalted k := by simp
  waitAtGetKey x hx := by cases hx

theorem takeFault (hs : s.Inv) (k : FaultKind) (value : Option Word) : (s.takeFault k value).Inv :=
  hs.halt { kind := k, pc := s.pc, word := s.fetch, value := value }

/-- Outside a key wait PC may move anywhere in range. -/
theorem setPc (hs : s.Inv) (hm : s.mode = .running) {n : Nat} (hn : n ≤ 0xFFF) : (s.setPc (BitVec.ofNat 16 n)).Inv where
  pcInRange := by rw [State.setPc_pc, BitVec.toNat_ofNat]; omega
  iInRange := hs.iInRange
  memCanonical := hs.memCanonical
  stackInRange := hs.stackInRange
  latchOnlyInWait := hs.latchOnlyInWait
  recordIffHalted := hs.recordIffHalted
  waitAtGetKey x hx := by cases hm.symm.trans hx

/-- The commit of R36, whose fault is taken from the state before. -/
theorem commit {n : Nat} (hs : s.Inv) (hnew : new.Inv) (hm : new.mode = .running) (h : commit s new n = .next t) : t.Inv := by
  rcases commit_cases h with ⟨hn, rfl⟩ | ⟨-, rfl⟩
  · exact hnew.setPc hm hn
  · exact hs.takeFault _ _

/-- The writes of a fetchable instruction in Running, before its next PC. -/
theorem writes (hs : s.Inv) (hm : s.mode = .running) (hpc : s.pc.toNat + 1 ≤ 0xFFF) (hw : Writes i s new) : new.Inv := by
  obtain ⟨hmode, hrecord, hlatch, -, -⟩ := hw.control
  exact {
    pcInRange := by rw [hw.pc]; exact hs.pcInRange
    iInRange := hw.index_le hs.iInRange
    memCanonical := hw.mem_wf hs.memCanonical
    stackInRange := hw.stack_le hpc hs.stackInRange
    latchOnlyInWait := by rw [hlatch, hmode]; exact hs.latchOnlyInWait
    recordIffHalted := by rw [hmode, hrecord]; exact hs.recordIffHalted
    waitAtGetKey := fun x hx => by cases hm.symm.trans (hmode.symm.trans hx) }

theorem exec {w : Word} (hs : s.Inv) (hm : s.mode = .running) (hf : s.fetch = some w) (hd : decode w = .ok i)
    (h : exec i s = .next t) : t.Inv := by
  have hpc : s.pc.toNat + 1 ≤ 0xFFF := by
    by_contra hgt
    rw [(fetch_none_iff s).2 (by omega)] at hf
    cases hf
  rcases exec_cases h with ⟨k, value, -, rfl⟩ | ⟨x, rfl, rfl⟩ | ⟨new, n, hn, rfl, hw⟩
  · exact hs.takeFault k value
  · refine hs.change_mode (by rw [hm]; rfl) (fun k hk => by cases hk) fun y hy => ?_
    cases hy
    exact ⟨w, hf, hd⟩
  · exact (hs.writes hm hpc hw).setPc (hw.control.1.trans hm) hn

theorem runInstruction (hs : s.Inv) (hm : s.mode = .running) (h : runInstruction s = .next t) : t.Inv := by
  rcases runInstruction_cases s with ⟨-, heq⟩ | ⟨w, e, -, -, heq⟩ | ⟨w, i, hf, hd, heq⟩ <;> rw [heq] at h
  · cases h; exact hs.takeFault _ _
  · cases h; exact hs.takeFault _ _
  · exact hs.exec hm hf hd h

theorem resumeKeyWait {x : Reg} {k : Key} (hs : s.Inv) (hm : s.mode = .awaitingKey x) (h : resumeKeyWait x k s = .next t) :
    t.Inv := by
  have hleft : s.leaveWait.Inv :=
    hs.change_mode (by rw [hm]; rfl) (fun k hk => by cases hk) (fun y hy => by cases hy)
  exact hs.commit (hleft.frame ..) rfl h

theorem coreTurn (hs : s.Inv) (h : coreTurn s = .next t) : t.Inv := by
  cases hm : s.mode with
  | running => rw [coreTurn_running hm] at h; exact hs.runInstruction hm h
  | awaitingKey x =>
    cases hk : s.keyLatch with
    | none => simp only [Machine.coreTurn, hm, hk] at h; cases h; exact hs
    | some k => simp only [Machine.coreTurn, hm, hk] at h; exact hs.resumeKeyWait hm h
  | halted k => simp [Machine.coreTurn, hm] at h
  | stopped => simp [Machine.coreTurn, hm] at h

theorem ifLive (hs : s.Inv) (hnext : s.mode.live = true → new.Inv) : (s.ifLive new).Inv := by
  cases hl : s.mode.live with
  | true => rw [ifLive_live _ hl]; exact hnext hl
  | false => rw [ifLive_terminal _ hl]; exact hs

theorem latchAfter_only_in_wait (hs : s.Inv) {k : Key} (hne : s.latchAfter k ≠ none) : ∃ x, s.mode = .awaitingKey x := by
  by_contra hno
  rw [latchAfter_other k (.inl (not_exists.1 hno))] at hne
  exact hno (hs.latchOnlyInWait hne)

theorem keyDown (hs : s.Inv) (k : Key) : (s.keyDown k).Inv := by
  refine hs.ifLive fun _ => ?_
  split_ifs
  · exact hs
  · exact ⟨hs.pcInRange, hs.iInRange, hs.memCanonical, hs.stackInRange, hs.latchAfter_only_in_wait, hs.recordIffHalted,
      hs.waitAtGetKey⟩

/-- Reset values with any canonical memory meet the invariant (R52). -/
theorem reinitialise (s : State) {m : Memory} (hm : m.wf = true) : ({ s.reinitialise with mem := m } : State).Inv where
  pcInRange := show (0x200 : Word).toNat ≤ 0xFFF by decide
  iInRange := Nat.zero_le _
  memCanonical := hm
  stackInRange k hk := absurd hk (Nat.not_lt_zero _)
  latchOnlyInWait hne := absurd rfl hne
  recordIffHalted k := by simp [State.reinitialise, State.reset]
  waitAtGetKey x hx := by cases hx

theorem loadRom (s : State) (rom : List Byte) : (s.loadRom rom).Inv := by
  rcases Nat.lt_or_ge 3584 rom.length with hgt | hle
  · rw [loadRom_tooLarge s hgt]
    exact (reinitialise s Memory.reset_mem_wf).halt
      { kind := .romTooLarge, pc := 0x200, word := none, value := some (romLengthValue rom.length) }
  · rw [loadRom_fits s hle]
    exact reinitialise s (Memory.ofBytes_wf rom (by simp only [Config.memSize]; omega))

theorem agentStep {e : AgentStep} (hs : s.Inv) (h : agentStep e s = .next t) : t.Inv := by
  cases e with
  | core => exact hs.coreTurn h
  | tick => cases h; exact hs.ifLive fun _ => hs.frame ..
  | keyDown k => cases h; exact hs.keyDown k
  | keyUp k => cases h; exact hs.ifLive fun _ => hs.frame ..
  | ackRedraw => cases h; exact hs.ifLive fun _ => hs.frame ..
  | stop =>
    cases h
    exact hs.ifLive fun hl => hs.change_mode hl (fun k hk => by cases hk) (fun x hx => by cases hx)
  | load rom => cases h; exact loadRom s rom

end State.Inv

/-- Settles O45: the step is one agent's, at the state whose turn is used up, and every agent's step keeps the invariant. -/
theorem everyStepKeepsTheInvariant : Obligations.EveryStepKeepsTheInvariant := by
  intro s t hs h
  rw [step_eq] at h
  have hdequeued : s.dequeue.Inv := hs.frame ..
  exact hdequeued.agentStep h

/-- Settles O46: the reset state holds the reset values and the empty memory. -/
theorem resetMeetsTheInvariant : Obligations.ResetMeetsTheInvariant :=
  State.Inv.reinitialise State.reset Memory.reset_mem_wf

end Sys2Proof.Machine
end

section
/-! Proofs of the statements of 10_state.md, continued: which registers an instruction writes and reads (R33). -/

namespace Sys2Proof.Machine

variable {i : Instr} {s new : State}

/-! ## The registers an instruction writes -/

/-- R33, R53: the writes of an instruction, register by register. -/
theorem Writes.reg_eq {r : Reg} (hw : Writes i s new) (hr : writesReg i r = false) : new.reg r = s.reg r := by
  cases i with
  | set x nn | add x nn | setRegister x y | orRegister x y | andRegister x y | xorRegister x y
  | setRegisterDelayTimer x | random x nn =>
    cases hw
    exact setReg_other s _ (by simpa [writesReg] using hr)
  | addRegister x y | subtractYFromX x y | subtractXFromY x y | shiftRight x y | shiftLeft x y =>
    cases hw
    obtain ⟨hx, hf⟩ : r ≠ x ∧ r ≠ 0xF := by simpa [writesReg] using hr
    rw [reg_setResultAndFlag, if_neg hf, if_neg hx]
  | display x y n =>
    obtain ⟨out, -, rfl⟩ := hw
    exact setReg_other _ _ (by simpa [writesReg] using hr)
  | load x =>
    obtain ⟨-, rfl⟩ := hw
    rw [reg_loadRegs, if_neg (by simpa [writesReg] using hr)]
  | ret =>
    obtain ⟨a, h⟩ := hw
    obtain ⟨-, -, hnew, -⟩ := pop_some h
    rw [hnew]; rfl
  | callSubroutine nnn =>
    obtain ⟨-, -, hnew, -⟩ := push_some hw
    rw [hnew]; rfl
  | addToIndex x | decimalConversion x | store x => obtain ⟨-, rfl⟩ := hw; rfl
  | getKey x => exact hw.elim
  | _ => cases hw; rfl

/-- Settles O41: a fault and GetKey write no register, and the writes are those of the table. -/
theorem onlyListedRegistersAreWritten : Obligations.OnlyListedRegistersAreWritten := by
  intro i s t r h hr
  rcases exec_cases h with ⟨k, value, -, rfl⟩ | ⟨x, rfl, rfl⟩ | ⟨new, n, -, rfl, hw⟩
  · rfl
  · rfl
  · exact hw.reg_eq hr

/-! ## The registers an instruction reads -/

variable {r x : Reg} {b : Byte} {overwritten : Bool}

/-- `res'` is `res` with `b` in Vr, as if the value had been carried along unread, or `res` itself where Vr is overwritten. -/
def CarriesReg (r : Reg) (b : Byte) (overwritten : Bool) (res res' : Result) : Prop :=
  res' = mapNext (fun t => t.setReg r b) res ∨ (overwritten = true ∧ res' = res)

theorem carriesReg_raise (k : FaultKind) (value : Option Word) :
    CarriesReg r b overwritten (raise s k value) (raise (s.setReg r b) k value) := .inl rfl

/-- A commit whose writes carry or overwrite Vr: a next-PC fault discards the overwrite and carries Vr all the same (R36). -/
theorem carriesReg_commit {new' : State} {n : Nat}
    (h : new' = new.setReg r b ∨ (overwritten = true ∧ new' = new)) :
    CarriesReg r b overwritten (commit s new n) (commit (s.setReg r b) new' n) := by
  rcases Nat.lt_or_ge 0xFFF n with hn | hn
  · rw [commit_of_gt hn, commit_of_gt hn]; exact .inl rfl
  · rw [commit_of_le hn, commit_of_le hn]
    rcases h with rfl | ⟨hw, rfl⟩
    · exact .inl rfl
    · exact .inr ⟨hw, rfl⟩

/-- A write of Vx after a change of Vr overwrites it or leaves it to be made afterwards. -/
theorem setReg_setReg (s : State) (r x : Reg) (b c : Byte) :
    (s.setReg r b).setReg x c = (s.setReg x c).setReg r b ∨
      ((r == x) = true ∧ (s.setReg r b).setReg x c = s.setReg x c) := by
  by_cases h : r = x
  · subst h
    exact .inr ⟨beq_self_eq_true r, by simp [State.setReg]⟩
  · have hval : r.val ≠ x.val := fun hv => h (Fin.ext hv)
    exact .inl (by simp only [State.setReg, Vector.set_comm b c hval])

theorem setReg_setResultAndFlag (s : State) (r x : Reg) (b c : Byte) (f : Bool) :
    (s.setReg r b).setResultAndFlag x c f = (s.setResultAndFlag x c f).setReg r b ∨
      ((r == x || r == 0xF) = true ∧ (s.setReg r b).setResultAndFlag x c f = s.setResultAndFlag x c f) := by
  simp only [State.setResultAndFlag, setFlag_eq]
  rcases setReg_setReg s r x b c with h | ⟨hx, h⟩ <;> rw [h]
  · rcases setReg_setReg (s.setReg x c) r 0xF b (flagByte f) with h | ⟨hf, h⟩
    · exact .inl h
    · exact .inr ⟨by rw [hf, Bool.or_true], h⟩
  · exact .inr ⟨by rw [hx, Bool.true_or], rfl⟩

/-- States that differ at most in their registers are equal when each register is. -/
theorem eq_of_reg {t u : State} (ht : t = { s with v := t.v }) (hu : u = { s with v := u.v })
    (h : ∀ q, t.reg q = u.reg q) : t = u := by
  have hv : t.v = u.v := Vector.ext fun k hk => h ⟨k, hk⟩
  rw [ht, hu, hv]

theorem setReg_loadRegs (s : State) (r x : Reg) (b : Byte) :
    loadRegs (s.setReg r b) x = (loadRegs s x).setReg r b ∨
      (decide (r ≤ x) = true ∧ loadRegs (s.setReg r b) x = loadRegs s x) := by
  have hleft : loadRegs (s.setReg r b) x = { s with v := (loadRegs (s.setReg r b) x).v } := loadRegs_eq _ x
  by_cases hr : r ≤ x
  · refine .inr ⟨decide_eq_true hr, eq_of_reg hleft (loadRegs_eq s x) fun q => ?_⟩
    have hq : ¬ q ≤ x → q ≠ r := fun hq hqr => hq (hqr ▸ hr)
    simp only [reg_loadRegs, reg_setReg, State.setReg_mem, State.setReg_i]
    split_ifs with hqx hqr
    · rfl
    · exact absurd hqr (hq hqx)
    · rfl
  · refine .inl (eq_of_reg hleft (by rw [loadRegs_eq s x]; rfl) fun q => ?_)
    have hq : q = r → ¬ q ≤ x := fun hqr => hqr ▸ hr
    simp only [reg_loadRegs, reg_setReg, State.setReg_mem, State.setReg_i]
    split_ifs with hqx hqr
    · exact absurd hqx (hq hqr)
    · rfl
    · rfl
    · rfl

theorem pop_of_pos {s : State} (h : 0 < s.sp.val) :
    s.pop = some (s.stack[s.sp.val - 1], { s with sp := ⟨s.sp.val - 1, by omega⟩ }) := dif_pos h

theorem pop_setReg (s : State) (r : Reg) (b : Byte) :
    (s.setReg r b).pop = s.pop.map fun p => (p.1, p.2.setReg r b) := by
  by_cases h : 0 < s.sp.val
  · rw [pop_of_pos h]; exact pop_of_pos (s := s.setReg r b) h
  · have hempty : s.sp.val = 0 := by omega
    rw [(pop_none_iff s).2 hempty]; exact (pop_none_iff _).2 hempty

theorem push_setReg (s : State) (r : Reg) (b : Byte) (a : Word) :
    (s.setReg r b).push a = (s.push a).map fun t => t.setReg r b := by
  by_cases h : s.sp.val < 16
  · rw [push_of_lt a h]; exact push_of_lt (s := s.setReg r b) a h
  · have hfull : s.sp.val = 16 := by omega
    rw [(push_none_iff s a).2 hfull]; exact (push_none_iff _ a).2 hfull

theorem indexAddr_setReg (s : State) (r : Reg) (b : Byte) : (s.setReg r b).indexAddr = s.indexAddr := rfl

theorem carriesReg_return : CarriesReg r b overwritten (execReturn s) (execReturn (s.setReg r b)) := by
  simp only [execReturn, pop_setReg]
  rcases s.pop with _ | ⟨a, new⟩
  · exact carriesReg_raise ..
  · exact carriesReg_commit (.inl rfl)

theorem carriesReg_callSubroutine (nnn : Addr12) :
    CarriesReg r b overwritten (execCallSubroutine nnn s) (execCallSubroutine nnn (s.setReg r b)) := by
  simp only [execCallSubroutine, push_setReg, State.setReg_pc]
  rcases s.push (BitVec.ofNat 16 (s.pc.toNat + 2)) with _ | new
  · exact carriesReg_raise ..
  · exact carriesReg_commit (.inl rfl)

theorem carriesReg_skipOnKey {want : Bool} (hx : (s.setReg r b).reg x = s.reg x) :
    CarriesReg r b overwritten (skipOnKey x want s) (skipOnKey x want (s.setReg r b)) := by
  simp only [skipOnKey, hx]
  rcases keyOperand (s.reg x) with _ | k
  · exact carriesReg_raise ..
  · exact carriesReg_commit (.inl rfl)

/-- R33: an instruction that does not read Vr carries or overwrites it. -/
theorem exec_carriesReg (i : Instr) (s : State) (r : Reg) (b : Byte) (hr : readsReg i r = false) :
    CarriesReg r b (writesReg i r) (exec i s) (exec i (s.setReg r b)) := by
  have unread {q : Reg} (hq : (r == q) = false) : (s.setReg r b).reg q = s.reg q :=
    setReg_other s b (Ne.symm (beq_eq_false_iff_ne.1 hq))
  cases i with
  | clearScreen | jump nnn | setIndex nnn => exact carriesReg_commit (.inl rfl)
  | ret => exact carriesReg_return
  | callSubroutine nnn => exact carriesReg_callSubroutine nnn
  | getKey x => exact .inl rfl
  | skipIfPressed x | skipIfNotPressed x => exact carriesReg_skipOnKey (unread hr)
  | set x nn | setRegisterDelayTimer x => exact carriesReg_commit (setReg_setReg ..)
  | random x nn =>
    refine carriesReg_commit ((setReg_setReg s r x b (s.drawByte &&& nn)).imp ?_ (.imp_right ?_)) <;>
      exact congrArg State.countDraw
  | skipEqual x nn | skipNotEqual x nn | setDelayTimer x | setSoundTimer x | fontCharacter x =>
    simp only [exec, execSkipEqual, execSkipNotEqual, execSetDelayTimer, execSetSoundTimer, execFontCharacter, unread hr]
    exact carriesReg_commit (.inl rfl)
  | skipRegisterEqual x y | skipRegisterNotEqual x y =>
    obtain ⟨hx, hy⟩ := Bool.or_eq_false_iff.1 hr
    simp only [exec, execSkipRegisterEqual, execSkipRegisterNotEqual, unread hx, unread hy]
    exact carriesReg_commit (.inl rfl)
  | jumpWithOffset nnn =>
    simp only [exec, execJumpWithOffset, State.offsetTarget, unread hr]
    exact carriesReg_commit (.inl rfl)
  | add x nn | setRegister x y =>
    simp only [exec, execAdd, execSetRegister, unread hr]
    exact carriesReg_commit (setReg_setReg ..)
  | orRegister x y | andRegister x y | xorRegister x y =>
    obtain ⟨hx, hy⟩ := Bool.or_eq_false_iff.1 hr
    simp only [exec, execOrRegister, execAndRegister, execXorRegister, unread hx, unread hy]
    exact carriesReg_commit (setReg_setReg ..)
  | shiftRight x y | shiftLeft x y =>
    simp only [exec, execShiftRight, execShiftLeft, unread hr]
    exact carriesReg_commit (setReg_setResultAndFlag ..)
  | addRegister x y | subtractYFromX x y | subtractXFromY x y =>
    obtain ⟨hx, hy⟩ := Bool.or_eq_false_iff.1 hr
    simp only [exec, execAddRegister, execSubtractYFromX, execSubtractXFromY, unread hx, unread hy]
    exact carriesReg_commit (setReg_setResultAndFlag ..)
  | addToIndex x =>
    have hsum : (s.setReg r b).indexSum x = s.indexSum x := by rw [State.indexSum, unread hr]; rfl
    simp only [exec, execAddToIndex]
    rw [hsum]
    split_ifs
    · exact carriesReg_commit (.inl rfl)
    · exact carriesReg_raise ..
  | decimalConversion x =>
    simp only [exec, execDecimalConversion]
    rw [indexAddr_setReg, unread hr]
    split_ifs
    · exact carriesReg_commit (.inl rfl)
    · exact carriesReg_raise ..
  | store x =>
    have hregs : (regsUpTo x).map (s.setReg r b).reg = (regsUpTo x).map s.reg :=
      List.map_congr_left fun q hq => setReg_other s b fun hqr =>
        of_decide_eq_false hr (hqr ▸ (mem_regsUpTo x q).1 hq)
    simp only [exec, execStore]
    rw [indexAddr_setReg, hregs]
    split_ifs
    · exact carriesReg_commit (.inl rfl)
    · exact carriesReg_raise ..
  | load x =>
    simp only [exec, execLoad]
    rw [indexAddr_setReg]
    split_ifs
    · exact carriesReg_commit (setReg_loadRegs s r x b)
    · exact carriesReg_raise ..
  | display x y n =>
    obtain ⟨hx, hy⟩ := Bool.or_eq_false_iff.1 hr
    have hsprite (x0 y0 : Nat) : drawSprite (s.setReg r b) x0 y0 n.val = drawSprite s x0 y0 n.val := rfl
    simp only [exec, execDisplay]
    rw [indexAddr_setReg, unread hx, unread hy, hsprite]
    split_ifs
    · exact carriesReg_commit (setReg_setReg (s.setScreen _) r 0xF b _)
    · exact carriesReg_raise ..

/-- Settles O42: an instruction carries or overwrites a register it does not read. -/
theorem onlyListedRegistersAreRead : Obligations.OnlyListedRegistersAreRead :=
  fun i s r b hr => exec_carriesReg i s r b hr

end Sys2Proof.Machine
end

section
/-! Proofs of the statements of 10_state.md, continued: fetch, timers and loads. -/

namespace Sys2Proof.Machine

/-- Settles O9: on the core's turn in Running the fetched word is the two bytes at PC. -/
theorem stepRunsTheDecodedInstruction : Obligations.StepRunsTheDecodedInstruction := by
  intro s i hm hturn hpc hdecode
  have hfetch : s.dequeue.fetch = some (wordOfBytes (s.mem.read s.pc.toNat) (s.mem.read (s.pc.toNat + 1))) :=
    fetch_of_le hpc
  rw [step_core hturn]
  exact (coreTurn_running (s := s.dequeue) hm).trans (runInstruction_of_decode hfetch hdecode)

theorem tick_mode (s : State) : s.tick.mode = s.mode := by
  cases hl : s.mode.live with
  | true => rw [tick_live hl]
  | false => rw [tick_terminal hl]

/-- Settles O48, by induction on the number of ticks. -/
theorem ticksDrainATimerToZero : Obligations.TicksDrainATimerToZero := by
  intro n
  induction n with
  | zero => exact fun s _ => ⟨rfl, rfl⟩
  | succ n ih =>
    intro s hl
    obtain ⟨hdt, hst⟩ := ih s.tick (by rw [tick_mode]; exact hl)
    rw [Function.iterate_succ_apply, hdt, hst, tick_live hl, countDown_toNat, countDown_toNat]
    omega

/-- A loaded memory holds the ROM from 0x200 on (R320). -/
theorem read_loaded_rom (rom : List Byte) {j : Nat} (hj : j < rom.length) :
    (Memory.ofBytes 0x200 rom).read (0x200 + j) = rom.getD j 0 := by
  rw [Memory.read_ofBytes, if_pos (by omega), Nat.add_sub_cancel_left]

/-- Below and above the ROM a loaded memory holds its reset bytes (R320). -/
theorem read_loaded_outside (rom : List Byte) {a : Nat} (ha : a < 0x200 ∨ 0x200 + rom.length ≤ a) :
    (Memory.ofBytes 0x200 rom).read a = Memory.resetByte a := by
  rw [Memory.read_ofBytes, if_neg (by omega)]

/-- Settles O54: the reset values, and memory by the three ranges ROM, font and the rest. -/
theorem loadInitialisesTheMachine : Obligations.LoadInitialisesTheMachine := by
  intro s rom hrom
  have hfont := Config.fontBase.isLt
  refine ⟨{ s.reinitialise with mem := Memory.ofBytes 0x200 rom }, congrArg _ (loadRom_fits s hrom),
    fun r => Vector.getElem_replicate r.isLt, rfl, rfl, fun k => Vector.getElem_replicate k.isLt, rfl, rfl, rfl,
    fun r c => ?_, fun k => Vector.getElem_replicate k.isLt, rfl, rfl, rfl, rfl,
    fun j hj => read_loaded_rom rom hj, fun j hj => ?_, fun a ha => ?_⟩
  · simp [State.reinitialise, State.reset]
  · exact (read_loaded_outside rom (.inl (by omega))).trans (resetByte_font hj)
  · exact (read_loaded_outside rom (by omega)).trans (resetByte_zero (by omega))

/-- Settles O56: no memory cell is listed at reset, so every byte is its reset byte. -/
theorem resetIsTheLoadOfTheEmptyRom : Obligations.ResetIsTheLoadOfTheEmptyRom :=
  ⟨rfl, rfl, rfl, rfl, fun _ hj => resetByte_font hj, fun _ ha => resetByte_zero ha⟩

end Sys2Proof.Machine
end

section
/-! Proofs of the statements of 20_memory.md: fetch faults, reads after writes, a fetch after a Store, and who changes memory. -/

namespace Sys2Proof.Machine

variable {s t : State}

/-! ## Fetch past the end of memory (R75) -/

/-- The core's instruction step when no whole word fits at PC. -/
theorem runInstruction_of_fetch_none (hf : s.fetch = none) :
    runInstruction s = raiseOutOfBounds s (s.pc.toNat + 1) := by
  simp [runInstruction, hf]

/-- Settles O10: the fetch answers nothing, and so the record that the fault reads it into has no word. -/
theorem fetchPastMemoryFaults : Obligations.FetchPastMemoryFaults := by
  intro s hm hpc
  have hf : s.fetch = none := (fetch_none_iff s).2 hpc
  calc agentStep .core s = runInstruction s := coreTurn_running hm
    _ = raiseOutOfBounds s (s.pc.toNat + 1) := runInstruction_of_fetch_none hf
    _ = _ := by rw [raiseOutOfBounds_eq, State.takeFault, hf]

/-! ## Reads after writes (R72, R73) -/

/-- Settles O31, by the two cases of a read after a write. -/
theorem memoryWriteSetsItsCellOnly : Obligations.MemoryWriteSetsItsCellOnly :=
  fun m a _ v => ⟨Memory.read_write_same m a v, Memory.read_write_other m v⟩

/-! ## A fetch after a Store (R86, R224) -/

/-- The bytes a Store lays out from `a` on: Vr stands at `a + r`. -/
theorem read_storedRegs (s : State) (m : Memory) (a : Nat) {r x : Reg} (h : r ≤ x) :
    (m.writeList a ((regsUpTo x).map s.reg)).read (a + r.val) = s.reg r := by
  have hlen : ((regsUpTo x).map s.reg).length = x.val + 1 := by rw [List.length_map, regsUpTo_length]
  have hrx : r.val ≤ x.val := h
  rw [Memory.read_writeList, if_pos (by omega), Nat.add_sub_cancel_left, List.getD_eq_getElem?_getD, List.getElem?_map,
    regsUpTo_getElem? x r h]
  rfl

/-- A Store that leaves the core in Running has passed its range check and committed the registers' bytes. -/
theorem store_committed {x : Reg} (h : exec (.store x) s = .next t) (hm : t.mode = .running) :
    s.i.toNat + x.val ≤ 0xFFF ∧ t.mem = s.mem.writeList s.i.toNat ((regsUpTo x).map s.reg) := by
  rcases exec_cases h with ⟨k, value, -, rfl⟩ | ⟨y, hget, -⟩ | ⟨new, n, -, rfl, hrange, rfl⟩
  · cases hm
  · cases hget
  · exact ⟨hrange, rfl⟩

/-- Settles O32: both bytes at PC lie in the stored range, hence in memory, and read as the registers stored there. -/
theorem fetchSeesTheStoreBeforeIt : Obligations.FetchSeesTheStoreBeforeIt := by
  intro x s t r _ h hm hpc hr
  obtain ⟨hrange, hmem⟩ := store_committed h hm
  have hnext : (r + 1).val = r.val + 1 := Fin.val_add_one_of_lt' (by omega)
  have hhigh : t.mem.read t.pc.toNat = s.v[r] := by
    rw [hmem, hpc]
    exact read_storedRegs s s.mem _ (Fin.le_def.2 (by omega))
  have hlow : t.mem.read (t.pc.toNat + 1) = s.v[r + 1] := by
    rw [hmem, hpc, Nat.add_assoc, ← hnext]
    exact read_storedRegs s s.mem _ (Fin.le_def.2 (by omega))
  rw [fetch_of_le (by omega), hhigh, hlow, wordOfBytes]

/-! ## Who changes memory (R81) -/

/-- The word at PC is a DecimalConversion or a Store, the two operations of R81 that write memory. -/
def State.FetchesMemoryWriter (s : State) : Prop :=
  ∃ w i x, s.fetch = some w ∧ decode w = .ok i ∧ (i = .decimalConversion x ∨ i = .store x)

/-- The steps of the timer and the host that are not taken in a terminal mode keep memory when what they give does. -/
theorem ifLive_mem {next : State} (h : next.mem = s.mem) : (s.ifLive next).mem = s.mem := by
  unfold State.ifLive; split_ifs <;> simp [h]

theorem tick_mem (s : State) : s.tick.mem = s.mem := ifLive_mem rfl

theorem stop_mem (s : State) : s.stop.mem = s.mem := ifLive_mem rfl

theorem keyDown_mem (s : State) (k : Key) : (s.keyDown k).mem = s.mem :=
  ifLive_mem (by split_ifs <;> rfl)

theorem resumeKeyWait_mem {x : Reg} {k : Key} (h : resumeKeyWait x k s = .next t) : t.mem = s.mem := by
  rcases commitNext_cases h with ⟨-, rfl⟩ | ⟨-, rfl⟩ <;> rfl

/-- A step of Running that changes a byte runs one of the two instructions that write memory. -/
theorem runInstruction_writer {a : Nat} (h : runInstruction s = .next t) (hne : t.mem.read a ≠ s.mem.read a) :
    s.FetchesMemoryWriter := by
  rcases runInstruction_cases s with ⟨-, heq⟩ | ⟨w, e, -, -, heq⟩ | ⟨w, i, hf, hd, heq⟩ <;> rw [heq] at h
  · cases h; exact absurd rfl hne
  · cases h; exact absurd rfl hne
  · obtain ⟨-, -, -, -, -, hwriters, -⟩ := eachPieceOfStateHasItsWriters i s t h
    obtain ⟨x, hi⟩ := hwriters a hne
    exact ⟨w, i, x, hf, hd, hi⟩

/-- The core changes a byte in Running only: the resume and the hold of a key wait keep memory. -/
theorem coreTurn_writer {a : Nat} (h : coreTurn s = .next t) (hne : t.mem.read a ≠ s.mem.read a) :
    s.mode = .running ∧ s.FetchesMemoryWriter := by
  cases hm : s.mode with
  | running => exact ⟨rfl, runInstruction_writer ((coreTurn_running hm).symm.trans h) hne⟩
  | awaitingKey x =>
    cases hk : s.keyLatch with
    | none => simp only [coreTurn, hm, hk] at h; cases h; exact absurd rfl hne
    | some k =>
      simp only [coreTurn, hm, hk] at h
      exact absurd (congrArg (Memory.read · a) (resumeKeyWait_mem h)) hne
  | halted k => simp [coreTurn, hm] at h
  | stopped => simp [coreTurn, hm] at h

/-- Only a load and the core change a byte, the core by a DecimalConversion or a Store. -/
theorem agentStep_writer {e : AgentStep} {a : Nat} (h : agentStep e s = .next t) (hne : t.mem.read a ≠ s.mem.read a) :
    (∃ rom, e = .load rom) ∨ (e = .core ∧ s.mode = .running ∧ s.FetchesMemoryWriter) := by
  have hmem : t.mem ≠ s.mem := fun heq => hne (by rw [heq])
  cases e with
  | core => exact .inr ⟨rfl, coreTurn_writer h hne⟩
  | load rom => exact .inl ⟨rom, rfl⟩
  | tick => cases h; exact absurd (tick_mem s) hmem
  | keyDown k => cases h; exact absurd (keyDown_mem s k) hmem
  | keyUp k => cases h; exact absurd (State.keyUp_mem s k) hmem
  | ackRedraw => cases h; exact absurd (State.ackRedraw_mem s) hmem
  | stop => cases h; exact absurd (stop_mem s) hmem

/-- An agent other than the core has its turn by standing first in the agenda. -/
theorem agenda_of_turn {e : AgentStep} (h : s.turn = e) (he : e ≠ .core) : s.agenda = e :: s.agenda.tail := by
  cases hagenda : s.agenda with
  | nil => exact absurd ((turn_nil hagenda).symm.trans h).symm he
  | cons first rest => rw [← h, turn_cons hagenda, List.tail_cons]

/-- Settles O44: the step is one agent's, and only a load's or the core's changes a byte. -/
theorem memoryChangesOnlyByStoresAndLoads : Obligations.MemoryChangesOnlyByStoresAndLoads := by
  intro s t a h hne
  rw [step_eq] at h
  rcases agentStep_writer h hne with ⟨rom, hload⟩ | ⟨hcore, hrunning, hwriter⟩
  · exact .inl ⟨rom, s.agenda.tail, agenda_of_turn hload AgentStep.noConfusion⟩
  · exact .inr ⟨hrunning, hcore, hwriter⟩

end Sys2Proof.Machine
end

section
/-! Proofs of the statements of 30_encoding.md: words from their fields, what the decoder answers, the opcode table, illegal words
and totality. -/

namespace Sys2Proof

/-! ## A word from its fields (R102, R103) -/

theorem regBits_toNat (x : Reg) : (regBits x).toNat = x.val := rfl

theorem wordFA_toNat (op : BitVec 4) (nnn : Addr12) : (wordFA op nnn).toNat = op.toNat * 4096 + nnn.toNat := by
  rw [wordFA, BitVec.toNat_append, ← Nat.shiftLeft_add_eq_or_of_lt nnn.isLt, Nat.shiftLeft_eq]

theorem wordFXB_toNat (op : BitVec 4) (x : Reg) (nn : Byte) :
    (wordFXB op x nn).toNat = op.toNat * 4096 + x.val * 256 + nn.toNat := by
  rw [wordFXB, BitVec.toNat_append, ← Nat.shiftLeft_add_eq_or_of_lt nn.isLt, Nat.shiftLeft_eq,
    BitVec.toNat_append, ← Nat.shiftLeft_add_eq_or_of_lt (regBits x).isLt, Nat.shiftLeft_eq, regBits_toNat]
  omega

theorem wordFXYN_toNat (op : BitVec 4) (x y : Reg) (n : BitVec 4) :
    (wordFXYN op x y n).toNat = op.toNat * 4096 + x.val * 256 + y.val * 16 + n.toNat := by
  rw [wordFXYN, BitVec.toNat_append, ← Nat.shiftLeft_add_eq_or_of_lt n.isLt, Nat.shiftLeft_eq,
    BitVec.toNat_append, ← Nat.shiftLeft_add_eq_or_of_lt (regBits y).isLt, Nat.shiftLeft_eq,
    BitVec.toNat_append, ← Nat.shiftLeft_add_eq_or_of_lt (regBits x).isLt, Nat.shiftLeft_eq,
    regBits_toNat, regBits_toNat]
  omega

variable {w : Word} {i : Instr}

theorem wordFA_fields {op : BitVec 4} (hA : fieldA w = op) : wordFA op (fieldNNN w) = w := by
  apply BitVec.eq_of_toNat_eq
  rw [wordFA_toNat, ← hA, fieldA_toNat, fieldNNN_toNat]
  omega

theorem wordFXB_fields {op : BitVec 4} {nn : Byte} (hA : fieldA w = op) (hNN : fieldNN w = nn) :
    wordFXB op (fieldX w) nn = w := by
  apply BitVec.eq_of_toNat_eq
  rw [wordFXB_toNat, ← hA, ← hNN, fieldA_toNat, fieldX_val, fieldNN_toNat]
  omega

theorem wordFXYN_fields {op n : BitVec 4} (hA : fieldA w = op) (hN : subOpN w = n) :
    wordFXYN op (fieldX w) (fieldY w) n = w := by
  apply BitVec.eq_of_toNat_eq
  rw [wordFXYN_toNat, ← hA, ← hN, fieldA_toNat, fieldX_val, fieldY_val, subOpN_toNat]
  omega

/-- With 0 for its low nibble, a word is built from its fields but for that nibble (R117). -/
theorem wordFXYN_fields_clear {op : BitVec 4} (hA : fieldA w = op) :
    (wordFXYN op (fieldX w) (fieldY w) 0x0).toNat = w.toNat - w.toNat % 16 := by
  have hzero : (0x0 : BitVec 4).toNat = 0 := rfl
  rw [wordFXYN_toNat, ← hA, fieldA_toNat, fieldX_val, fieldY_val, hzero]
  omega

/-! ## Decoding an encoded word (R104) -/

/-- Settles O1, by the format of the instruction's word: the decoder finds in it the opcode and the operands put there. -/
theorem decodeOfEncodeIsTheInstruction : Obligations.DecodeOfEncodeIsTheInstruction := by
  intro i _
  cases i with
  | clearScreen | ret => rfl
  | jump | callSubroutine | setIndex | jumpWithOffset => simp [encode, decode, fieldA_wordFA, fieldNNN_wordFA]
  | skipEqual | skipNotEqual | set | add | random =>
    simp [encode, decode, fieldA_wordFXB, fieldX_wordFXB, fieldNN_wordFXB]
  | skipIfPressed | skipIfNotPressed =>
    simp [encode, decode, decodeGroupE, fieldA_wordFXB, fieldX_wordFXB, fieldNN_wordFXB]
  | setRegisterDelayTimer | getKey | setDelayTimer | setSoundTimer | addToIndex | fontCharacter | decimalConversion
  | store | load =>
    simp [encode, decode, decodeGroupF, fieldA_wordFXB, fieldX_wordFXB, fieldNN_wordFXB]
  | skipRegisterEqual | skipRegisterNotEqual =>
    simp [encode, decode, fieldA_wordFXYN, fieldX_wordFXYN, fieldY_wordFXYN]
  | display => simp [encode, decode, fieldA_wordFXYN, fieldX_wordFXYN, fieldY_wordFXYN, fieldN_wordFXYN]
  | setRegister | orRegister | andRegister | xorRegister | addRegister | subtractYFromX | shiftRight | subtractXFromY
  | shiftLeft =>
    simp [encode, decode, decodeGroup8, fieldA_wordFXYN, fieldX_wordFXYN, fieldY_wordFXYN, subOpN_wordFXYN]

/-! ## The legal words of the groups that hold illegal ones (R106, R110 to R112, R115) -/

theorem legalWord_group0 (hA : fieldA w = 0x0) : legalWord w = true ↔ w = 0x00E0 ∨ w = 0x00EE := by
  simp [legalWord, legalGroup0, ← fieldA_toNat, hA]

theorem legalWord_group8 (hA : fieldA w = 0x8) :
    legalWord w = true ↔ subOpN w ∈ [0x0, 0x1, 0x2, 0x3, 0x4, 0x5, 0x6, 0x7, 0xE] := by
  have hgroup : legalWord w = legalGroup8 w := by simp [legalWord, ← fieldA_toNat, hA]
  rw [hgroup, legalGroup8, ← subOpN_toNat]
  generalize subOpN w = n
  revert n
  decide

theorem legalWord_groupE (hA : fieldA w = 0xE) : legalWord w = true ↔ fieldNN w ∈ [0x9E, 0xA1] := by
  have hgroup : legalWord w = legalGroupE w := by simp [legalWord, ← fieldA_toNat, hA]
  rw [hgroup, legalGroupE, ← fieldNN_toNat]
  generalize fieldNN w = nn
  revert nn
  decide

theorem legalWord_groupF (hA : fieldA w = 0xF) :
    legalWord w = true ↔ fieldNN w ∈ [0x07, 0x0A, 0x15, 0x18, 0x1E, 0x29, 0x33, 0x55, 0x65] := by
  have hgroup : legalWord w = legalGroupF w := by simp [legalWord, ← fieldA_toNat, hA]
  rw [hgroup, legalGroupF, ← fieldNN_toNat]
  generalize fieldNN w = nn
  revert nn
  decide

theorem legalWord_encode (i : Instr) : legalWord (encode i) = true := by
  cases i with
  | clearScreen | ret => decide
  | jump | callSubroutine | setIndex | jumpWithOffset => simp [legalWord, encode, ← fieldA_toNat, fieldA_wordFA]
  | skipEqual | skipNotEqual | set | add | random => simp [legalWord, encode, ← fieldA_toNat, fieldA_wordFXB]
  | skipRegisterEqual | skipRegisterNotEqual | display => simp [legalWord, encode, ← fieldA_toNat, fieldA_wordFXYN]
  | skipIfPressed | skipIfNotPressed => simp [legalWord_groupE, encode, fieldA_wordFXB, fieldNN_wordFXB]
  | setRegisterDelayTimer | getKey | setDelayTimer | setSoundTimer | addToIndex | fontCharacter | decimalConversion
  | store | load => simp [legalWord_groupF, encode, fieldA_wordFXB, fieldNN_wordFXB]
  | setRegister | orRegister | andRegister | xorRegister | addRegister | subtractYFromX | shiftRight | subtractXFromY
  | shiftLeft => simp [legalWord_group8, encode, fieldA_wordFXYN, subOpN_wordFXYN]

/-! ## What the decoder answers (R104 to R116) -/

/-- The words of an instruction: its encoding, and every word of group 5 or 9 with its registers (R108, R109).
`decode_eq_ok_iff` ties it to the decoder. -/
inductive Spells : Word → Instr → Prop where
  | encoding (i : Instr) : Spells (encode i) i
  | group5 {w : Word} (hA : fieldA w = 0x5) : Spells w (.skipRegisterEqual (fieldX w) (fieldY w))
  | group9 {w : Word} (hA : fieldA w = 0x9) : Spells w (.skipRegisterNotEqual (fieldX w) (fieldY w))

theorem Spells.of_encode (h : encode i = w) : Spells w i := h ▸ .encoding i

theorem Spells.legal (h : Spells w i) : legalWord w = true := by
  cases h with
  | encoding => exact legalWord_encode i
  | group5 hA | group9 hA => simp [legalWord, ← fieldA_toNat, hA]

/-- The answers to `w` that R104 and R115 allow. `decode_answers` ties it to the decoder. -/
inductive Answers (w : Word) : Except DecodeError Instr → Prop where
  | accepted {i : Instr} (h : Spells w i) : Answers w (.ok i)
  | rejected (h : ¬ legalWord w = true) : Answers w (.error (.unrecognizedInstruction w))

theorem decodeGroup0_answers (hA : fieldA w = 0x0) : Answers w (decodeGroup0 w) := by
  unfold decodeGroup0
  split_ifs with h h'
  · exact .accepted (.of_encode h.symm)
  · exact .accepted (.of_encode h'.symm)
  · exact .rejected fun hlegal => ((legalWord_group0 hA).1 hlegal).elim h h'

theorem decodeGroup8_answers (hA : fieldA w = 0x8) : Answers w (decodeGroup8 w) := by
  unfold decodeGroup8
  dsimp only
  split_ifs
  case neg => exact .rejected (by rw [legalWord_group8 hA]; simp_all)
  all_goals exact .accepted (.of_encode (wordFXYN_fields hA ‹_›))

theorem decodeGroupE_answers (hA : fieldA w = 0xE) : Answers w (decodeGroupE w) := by
  unfold decodeGroupE
  dsimp only
  split_ifs
  case neg => exact .rejected (by rw [legalWord_groupE hA]; simp_all)
  all_goals exact .accepted (.of_encode (wordFXB_fields hA ‹_›))

theorem decodeGroupF_answers (hA : fieldA w = 0xF) : Answers w (decodeGroupF w) := by
  unfold decodeGroupF
  dsimp only
  split_ifs
  case neg => exact .rejected (by rw [legalWord_groupF hA]; simp_all)
  all_goals exact .accepted (.of_encode (wordFXB_fields hA ‹_›))

/-- Everything the decoder can answer, by the word's group: arm `k` of the decoder is group `k - 1`, and no word comes to arm 17
(R116). -/
theorem decode_answers (w : Word) : Answers w (decode w) := by
  unfold decode
  split
  case h_1 hA => exact decodeGroup0_answers hA
  case h_6 hA => exact .accepted (.group5 hA)
  case h_9 hA => exact decodeGroup8_answers hA
  case h_10 hA => exact .accepted (.group9 hA)
  case h_15 hA => exact decodeGroupE_answers hA
  case h_16 hA => exact decodeGroupF_answers hA
  case h_2 hA | h_3 hA | h_11 hA | h_12 hA => exact .accepted (.of_encode (wordFA_fields hA))
  case h_4 hA | h_5 hA | h_7 hA | h_8 hA | h_13 hA => exact .accepted (.of_encode (wordFXB_fields hA rfl))
  case h_14 hA => exact .accepted (.of_encode (wordFXYN_fields hA rfl))
  case h_17 => simp only [imp_false] at *; bv_omega

theorem spells_of_decode (h : decode w = .ok i) : Spells w i := by
  cases h ▸ decode_answers w with
  | accepted hspells => exact hspells

theorem decode_of_spells (h : Spells w i) : decode w = .ok i := by
  cases h with
  | encoding => exact decodeOfEncodeIsTheInstruction i (Laws.wellFormed_all i)
  | group5 hA | group9 hA => simp [decode, hA]

/-- A word decodes to exactly the instruction it spells. -/
theorem decode_eq_ok_iff : decode w = .ok i ↔ Spells w i := ⟨spells_of_decode, decode_of_spells⟩

/-- Settles O3: a word that decodes spells an instruction and so is legal, and a rejected one is not. -/
theorem exactlyTheListedWordsAreIllegal : Obligations.ExactlyTheListedWordsAreIllegal := by
  intro w
  cases hd : decode w with
  | ok i =>
    have hlegal := (decode_eq_ok_iff.1 hd).legal
    simp [hlegal]
  | error e =>
    cases hd ▸ decode_answers w with
    | rejected hillegal => simp [hillegal]

/-- Settles O6: every word of the two groups spells the group's instruction. -/
theorem lowNibbleOfGroups5And9IsIgnored : Obligations.LowNibbleOfGroups5And9IsIgnored := by
  intro w
  have hx : Fin.ofNat 16 (w.toNat / 256) = fieldX w := Fin.ext (fieldX_val w).symm
  have hy : Fin.ofNat 16 (w.toNat / 16) = fieldY w := Fin.ext (fieldY_val w).symm
  rw [hx, hy, ← fieldA_toNat]
  exact ⟨fun h => decode_eq_ok_iff.2 (.group5 (BitVec.eq_of_toNat_eq h)),
    fun h => decode_eq_ok_iff.2 (.group9 (BitVec.eq_of_toNat_eq h))⟩

/-! ## The encoding of a decoded word, and its operands (R102, R105, R117) -/

/-- The encoder leaves the unused nibble at 0 (log 21). -/
theorem encode_low_nibble (i : Instr) (h : (encode i).toNat / 4096 = 5 ∨ (encode i).toNat / 4096 = 9) :
    (encode i).toNat % 16 = 0 := by
  rw [← fieldA_toNat] at h
  rw [← subOpN_toNat]
  cases i with
  | clearScreen | ret => revert h; decide
  | skipRegisterEqual | skipRegisterNotEqual => simp [encode, subOpN_wordFXYN]
  | jump | callSubroutine | setIndex | jumpWithOffset => simp [encode, fieldA_wordFA] at h
  | _ => simp [encode, fieldA_wordFXB, fieldA_wordFXYN] at h

/-- Settles O2, by the ways a word spells an instruction: as its encoding, or in groups 5 and 9 with any low nibble. -/
theorem encodeOfDecodeIsTheWordButForUnusedBits : Obligations.EncodeOfDecodeIsTheWordButForUnusedBits := by
  intro w i h
  cases decode_eq_ok_iff.1 h with
  | encoding => exact ⟨fun _ => rfl, fun hgroup => by rw [encode_low_nibble i hgroup, Nat.sub_zero]⟩
  | group5 hA | group9 hA =>
    refine ⟨fun hgroup => ?_, fun _ => wordFXYN_fields_clear hA⟩
    simp [← fieldA_toNat, hA] at hgroup

/-- `ops` are fields of `w`, in one of the shapes of R103's formats. -/
def OperandFields (w : Word) (ops : List (Nat × Nat)) : Prop :=
  ops = [] ∨ ops = [(12, (fieldNNN w).toNat)] ∨ ops = [(4, (fieldX w).val)] ∨
    ops = [(4, (fieldX w).val), (8, (fieldNN w).toNat)] ∨ ops = [(4, (fieldX w).val), (4, (fieldY w).val)] ∨
    ops = [(4, (fieldX w).val), (4, (fieldY w).val), (4, (fieldN w).val)]

theorem operandFields_encode (i : Instr) : OperandFields (encode i) i.operands := by
  unfold OperandFields
  cases i with
  | clearScreen | ret => exact .inl rfl
  | jump | callSubroutine | setIndex | jumpWithOffset => simp [encode, Instr.operands, fieldNNN_wordFA]
  | display => simp [encode, Instr.operands, fieldX_wordFXYN, fieldY_wordFXYN, fieldN_wordFXYN]
  | _ => simp [encode, Instr.operands, fieldX_wordFXB, fieldNN_wordFXB, fieldX_wordFXYN, fieldY_wordFXYN]

theorem Spells.operandFields (h : Spells w i) : OperandFields w i.operands := by
  cases h with
  | encoding => exact operandFields_encode i
  | group5 | group9 => exact .inr (.inr (.inr (.inr (.inl rfl))))

/-- Settles O5: the operands are fields of the word, and the fields are its quotients and remainders. -/
theorem operandsAreTheFieldsOfTheWord : Obligations.OperandsAreTheFieldsOfTheWord := by
  intro w i h
  rw [← fieldNNN_toNat, ← fieldX_val, ← fieldNN_toNat, ← fieldY_val, ← fieldN_val]
  exact (decode_eq_ok_iff.1 h).operandFields

/-! ## The opcode table (R113, R114, R120) -/

namespace Laws.EncodesItsRow

theorem of_instr (i : Instr) : Statement i := by
  cases i
  exacts [clearScreen, ret, jump _, callSubroutine _, skipEqual _ _, skipNotEqual _ _, skipRegisterEqual _ _, set _ _,
    add _ _, setRegister _ _, orRegister _ _, andRegister _ _, xorRegister _ _, addRegister _ _, subtractYFromX _ _,
    shiftRight _ _, subtractXFromY _ _, shiftLeft _ _, skipRegisterNotEqual _ _, setIndex _, jumpWithOffset _,
    random _ _, display _ _ _, skipIfPressed _, skipIfNotPressed _, setRegisterDelayTimer _, getKey _, setDelayTimer _,
    setSoundTimer _, addToIndex _, fontCharacter _, decimalConversion _, store _, load _]

end Laws.EncodesItsRow

/-- A word matches the row of the instruction it spells. -/
theorem Spells.matches_row (h : Spells w i) :
    ∃ row ∈ opcodeTable, row.mnemonic = i.mnemonic ∧ w &&& row.mask = row.pattern := by
  cases h with
  | encoding => exact Laws.EncodesItsRow.of_instr i
  | group5 hA =>
    refine ⟨⟨"SkipRegisterEqual", 0x5000, 0xF000⟩, by decide, rfl, ?_⟩
    rw [← wordFXYN_fields hA rfl, Laws.wordFXYN_masked]
    rfl
  | group9 hA =>
    refine ⟨⟨"SkipRegisterNotEqual", 0x9000, 0xF000⟩, by decide, rfl, ?_⟩
    rw [← wordFXYN_fields hA rfl, Laws.wordFXYN_masked]
    rfl

/-- No two rows of the table have the same name. -/
theorem row_eq_of_mnemonic : ∀ r ∈ opcodeTable, ∀ r' ∈ opcodeTable, r.mnemonic = r'.mnemonic → r = r' := by decide

/-- Two rows that agree on the bits both fix are the same. -/
theorem row_eq_of_pattern :
    ∀ r ∈ opcodeTable, ∀ r' ∈ opcodeTable, r.pattern &&& r'.mask = r'.pattern &&& r.mask → r = r' := by decide

/-- No word matches two rows of the table. -/
theorem row_eq_of_matches {r r' : OpcodeRow} (hr : r ∈ opcodeTable) (hr' : r' ∈ opcodeTable)
    (h : w &&& r.mask = r.pattern) (h' : w &&& r'.mask = r'.pattern) : r = r' :=
  row_eq_of_pattern r hr r' hr' (by rw [← h, ← h', BitVec.and_assoc, BitVec.and_assoc, BitVec.and_comm r.mask])

/-- A field that the mask keeps whole is the pattern's. -/
theorem extractLsb'_of_matches {m p : Word} {start len : Nat} (h : w &&& m = p)
    (hm : m.extractLsb' start len = BitVec.allOnes len) : w.extractLsb' start len = p.extractLsb' start len := by
  rw [← h, BitVec.extractLsb'_and, hm, BitVec.and_allOnes]

/-- The bits that R115's list looks at: all in group 0, the low nibble in group 8, the low byte in groups E and F. -/
theorem legalWord_congr {v : Word} (hA : fieldA w = fieldA v) (h0 : fieldA v = 0x0 → w = v)
    (h8 : fieldA v = 0x8 → subOpN w = subOpN v) (hEF : fieldA v = 0xE ∨ fieldA v = 0xF → fieldNN w = fieldNN v) :
    legalWord w = legalWord v := by
  simp only [legalWord, legalGroup8, legalGroupE, legalGroupF, ← fieldA_toNat, ← subOpN_toNat, ← fieldNN_toNat, hA]
  split_ifs with hv hv hv hv
  · rw [h0 (BitVec.eq_of_toNat_eq hv)]
  · rw [h8 (BitVec.eq_of_toNat_eq hv)]
  · rw [hEF (.inl (BitVec.eq_of_toNat_eq hv))]
  · rw [hEF (.inr (BitVec.eq_of_toNat_eq hv))]
  · rfl

/-- Every row has a legal pattern, and its mask keeps the bits that R115's list looks at. -/
theorem row_fixes_legality : ∀ r ∈ opcodeTable, legalWord r.pattern = true ∧ fieldA r.mask = 0xF ∧
    (fieldA r.pattern = 0x0 → r.mask = 0xFFFF) ∧ (fieldA r.pattern = 0x8 → subOpN r.mask = 0xF) ∧
    (fieldA r.pattern = 0xE ∨ fieldA r.pattern = 0xF → fieldNN r.mask = 0xFF) := by decide

theorem legalWord_of_matches {r : OpcodeRow} (hr : r ∈ opcodeTable) (h : w &&& r.mask = r.pattern) :
    legalWord w = true := by
  obtain ⟨hlegal, hA, h0, h8, hEF⟩ := row_fixes_legality r hr
  rw [← hlegal]
  exact legalWord_congr (extractLsb'_of_matches h hA)
    (fun hgroup => by rw [← h, h0 hgroup]; exact BitVec.and_allOnes.symm)
    (fun hgroup => extractLsb'_of_matches h (h8 hgroup)) (fun hgroup => extractLsb'_of_matches h (hEF hgroup))

/-- Settles O4: a word that matches a row is legal, so it spells an instruction and matches that one's row; a word has one row,
and a name too. -/
theorem decoderFollowsTheOpcodeTable : Obligations.DecoderFollowsTheOpcodeTable := by
  intro w row hrow
  constructor
  · intro h
    obtain ⟨i, hi⟩ := (exactlyTheListedWordsAreIllegal w).2 (legalWord_of_matches hrow h)
    obtain ⟨row', hrow', hname, h'⟩ := (decode_eq_ok_iff.1 hi).matches_row
    exact ⟨i, hi, by rw [row_eq_of_matches hrow hrow' h h', hname]⟩
  · rintro ⟨i, hi, hname⟩
    obtain ⟨row', hrow', hname', h'⟩ := (decode_eq_ok_iff.1 hi).matches_row
    rwa [row_eq_of_mnemonic row hrow row' hrow' (by rw [hname', hname])]

/-- Settles O7: the decoder computes each word's answer. -/
theorem wordsFromTheSpecDecode : Obligations.WordsFromTheSpecDecode :=
  ⟨rfl, rfl, rfl, rfl, rfl, rfl, rfl, rfl, rfl, rfl, rfl, rfl, rfl, rfl, rfl, rfl, rfl⟩

end Sys2Proof

namespace Sys2Proof.Machine

/-! ## Illegal words in the machine, and totality (R118, R119, R283) -/

/-- The core's instruction step at a word that the decoder rejects. -/
theorem runInstruction_of_decode_error {s : State} {w : Word} {e : DecodeError} (hf : s.fetch = some w)
    (hd : decode w = .error e) : runInstruction s = raise s .unrecognizedInstruction (some w) := by
  simp [runInstruction, hf, hd]

/-- Settles O11: the fetched word is rejected, and the fault entry reads the same word into the record. -/
theorem illegalWordHalts : Obligations.IllegalWordHalts := by
  intro s e hm hpc hd
  have hf : s.fetch = some (s.mem.read s.pc.toNat ++ s.mem.read (s.pc.toNat + 1)) := fetch_of_le hpc
  calc agentStep .core s = runInstruction s := coreTurn_running hm
    _ = raise s .unrecognizedInstruction (some (s.mem.read s.pc.toNat ++ s.mem.read (s.pc.toNat + 1))) :=
      runInstruction_of_decode_error hf hd
    _ = _ := by rw [raise, State.takeFault, hf]

/-- Settles O14: every outcome of an instruction is a next state. -/
theorem everyOperationAnswersANextState : Obligations.EveryOperationAnswersANextState :=
  fun i s => (exec_outcomes i s).imp fun _ h => h.1

end Sys2Proof.Machine
end

section
/-! Proofs of the statements of 40_control_flow.md: ClearScreen, the jumps, the call and the return. -/

namespace Sys2Proof.Machine

variable {s t : State}

/-- R104: the decoder reads every instruction from its encoding. -/
theorem decode_encode (i : Instr) : decode (encode i) = .ok i := decode_of_spells (.encoding i)

/-! ## ClearScreen (R140) -/

theorem blankScreen_off (r : Fin 32) (c : Fin 64) : blankScreen[r][c] = false := by
  simp [blankScreen]

theorem clearScreen_sequential (s : State) : Sequential .clearScreen s (s.setScreen blankScreen) :=
  sequential_of_commitNext rfl

/-- Settles O15: ClearScreen is a sequential instruction whose one write is the blank screen. -/
theorem clearScreenTurnsEveryPixelOff : Obligations.ClearScreenTurnsEveryPixelOff := by
  refine ⟨decode_encode .clearScreen, fun s => ?_⟩
  obtain ⟨hin, hout⟩ := clearScreen_sequential s
  exact ⟨fun hpc => ⟨_, hin hpc, blankScreen_off, fun _ => rfl, rfl⟩, hout⟩

/-! ## The jumps (R141, R144) -/

/-- An address in memory is its own 16-bit word (R34, R71). -/
theorem toNat_ofNat_of_le {n : Nat} (h : n ≤ 0xFFF) : (BitVec.ofNat 16 n).toNat = n := by
  rw [BitVec.toNat_ofNat]; omega

/-- The commit of R36 with a word as the next PC. -/
theorem commit_word {a : Word} (old new : State) (h : a.toNat ≤ 0xFFF) : commit old new a.toNat = .next (new.setPc a) := by
  rw [commit_of_le h, BitVec.ofNat_toNat, BitVec.setWidth_eq]

/-- The target of Jump and CallSubroutine passes the next-PC check in every state (R141, R142). -/
theorem commit_addrOperand (old new : State) (nnn : Addr12) :
    commit old new (addrOperand nnn).toNat = .next (new.setPc (addrOperand nnn)) :=
  commit_word old new (addrOperand_le nnn)

theorem exec_jump (nnn : Addr12) (s : State) : exec (.jump nnn) s = .next (s.setPc (addrOperand nnn)) :=
  commit_addrOperand s s nnn

/-- Settles O16: an address operand passes the next-PC check. -/
theorem jumpSetsPc : Obligations.JumpSetsPc :=
  fun nnn s => ⟨decode_encode (.jump nnn), _, exec_jump nnn s, addrOperand_toNat nnn, rfl⟩

/-- Settles O20: the commit's next PC is the unbounded sum, on either side of the next-PC check. -/
theorem jumpWithOffsetAddsV0 : Obligations.JumpWithOffsetAddsV0 := by
  intro nnn s
  exact ⟨decode_encode (.jumpWithOffset nnn),
    fun hle => ⟨_, commit_of_le hle, toNat_ofNat_of_le hle, rfl⟩, commit_of_gt⟩

/-! ## CallSubroutine (R142) -/

theorem exec_callSubroutine_of_lt (nnn : Addr12) (h : s.sp.val < 16) :
    exec (.callSubroutine nnn) s = .next { s with
      pc := addrOperand nnn
      stack := s.stack.set s.sp.val (BitVec.ofNat 16 (s.pc.toNat + 2))
      sp := ⟨s.sp.val + 1, by omega⟩ } := by
  simp only [exec, execCallSubroutine, push_of_lt _ h]
  exact commit_addrOperand ..

theorem exec_callSubroutine_of_full (nnn : Addr12) (h : s.sp.val = 16) :
    exec (.callSubroutine nnn) s = .next (s.takeFault .stackOverflow none) := by
  simp only [exec, execCallSubroutine, (push_none_iff s _).2 h, raise]

/-- Settles O17, by room on the stack or none. -/
theorem callPushesTheReturnAddress : Obligations.CallPushesTheReturnAddress :=
  fun nnn _ => ⟨decode_encode (.callSubroutine nnn),
    fun h => ⟨_, exec_callSubroutine_of_lt nnn h, addrOperand_toNat nnn, rfl, rfl, fun _ => rfl, rfl⟩,
    exec_callSubroutine_of_full nnn⟩

/-! ## Return (R143) -/

theorem exec_ret_of_empty (h : s.sp.val = 0) : exec .ret s = .next (s.takeFault .stackUnderflow none) := by
  simp only [exec, execReturn, (pop_none_iff s).2 h, raise]

/-- Return with a top entry: the pop's write, with the entry as the next PC. -/
theorem exec_ret_of_top {top : Fin 16} (h : top.val + 1 = s.sp.val) :
    exec .ret s = commit s { s with sp := top.castSucc } s.stack[top].toNat := by
  have hpop : s.pop = some (s.stack[top], { s with sp := top.castSucc }) := by
    rw [pop_of_pos (by omega)]
    simp only [← h, Nat.add_sub_cancel]
    rfl
  simp only [exec, execReturn, hpop]

/-- Settles O18: an empty stack faults, and a top entry is the commit's next PC. -/
theorem returnPopsIntoPc : Obligations.ReturnPopsIntoPc := by
  refine ⟨decode_encode .ret, fun s => ⟨exec_ret_of_empty, fun top htop => ?_⟩⟩
  rw [exec_ret_of_top htop]
  exact ⟨fun hle => ⟨_, commit_word _ _ hle, rfl, rfl, fun _ => rfl, rfl⟩, commit_of_gt⟩

/-- Settles O19: the entry that the call pushed is the top entry that the return pops. -/
theorem callThenReturnResumesAfterTheCall : Obligations.CallThenReturnResumesAfterTheCall := by
  intro nnn s hsp hpc
  obtain ⟨-, hcall, -⟩ := callPushesTheReturnAddress nnn s
  obtain ⟨t, ht, -, htsp, htstack, -, htframe⟩ := hcall hsp
  let top : Fin 16 := ⟨s.sp.val, hsp⟩
  have htop : t.stack[top] = BitVec.ofNat 16 (s.pc.toNat + 2) := by
    rw [htstack]; exact Vector.getElem_set_self hsp
  have hback : t.stack[top].toNat = s.pc.toNat + 2 := by
    rw [htop]; exact toNat_ofNat_of_le hpc
  obtain ⟨-, hpops⟩ := returnPopsIntoPc.2 t
  obtain ⟨u, hu, hupc, husp, -, huframe⟩ := (hpops top htsp.symm).1 (by omega)
  have hdepth : u.sp = s.sp := Fin.ext husp
  have hslots : u.stack = t.stack := by rw [huframe]
  refine ⟨t, u, ht, hu, by rw [hupc, hback], ?_, fun k hk => ?_⟩
  · rw [huframe, htframe, hdepth]
  · rw [hslots, htstack]
    exact Vector.getElem_set_ne hsp k.isLt (by omega)

/-! ## Which operation raises which kind (R280) -/

/-- Jump, CallSubroutine and GetKey raise no MemoryOutOfBounds (R141, R142, R263). -/
theorem not_jump_call_getKey_of_outOfBounds {i : Instr} (hm : s.mode = .running) (h : exec i s = .next t)
    (ht : t.mode = .halted .memoryOutOfBounds) (nnn : Addr12) (x : Reg) :
    i ≠ .jump nnn ∧ i ≠ .callSubroutine nnn ∧ i ≠ .getKey x := by
  refine ⟨?_, ?_, ?_⟩ <;> rintro rfl
  · cases (exec_jump nnn s).symm.trans h
    cases hm.symm.trans ht
  · by_cases hsp : s.sp.val < 16
    · cases (exec_callSubroutine_of_lt nnn hsp).symm.trans h
      cases hm.symm.trans ht
    · cases (exec_callSubroutine_of_full nnn (by omega)).symm.trans h
      cases ht
  · cases h
    cases ht

/-- Settles O13: from Running only the fault entry halts, with a kind that the operation raises. -/
theorem operationsRaiseOnlyTheirKinds : Obligations.OperationsRaiseOnlyTheirKinds := by
  intro i s t k hm h ht
  rcases exec_cases h with ⟨k', value, hraises, rfl⟩ | ⟨x, -, rfl⟩ | ⟨new, n, -, rfl, hw⟩
  · cases ht
    refine hraises.imp_left fun hk => ⟨hk, ?_⟩
    subst hk
    exact not_jump_call_getKey_of_outOfBounds hm h rfl
  · cases ht
  · obtain ⟨hmode, -⟩ := hw.control
    cases (hmode.trans hm).symm.trans ht

end Sys2Proof.Machine
end

section
/-! Proofs of the statements of 41_skips.md: the comparing skips and the key skips. -/

namespace Sys2Proof.Machine

/-! ## The comparing skips (R160 to R163) -/

/-- R108: a word of group 5 decodes to its registers' SkipRegisterEqual, whatever its low nibble. -/
theorem decode_group5 (x y : Reg) (n : BitVec 4) : decode (wordFXYN 0x5 x y n) = .ok (.skipRegisterEqual x y) := by
  have h := decode_of_spells (.group5 (fieldA_wordFXYN 0x5 x y n))
  rwa [fieldX_wordFXYN, fieldY_wordFXYN] at h

/-- R109: a word of group 9 decodes to its registers' SkipRegisterNotEqual, whatever its low nibble. -/
theorem decode_group9 (x y : Reg) (n : BitVec 4) : decode (wordFXYN 0x9 x y n) = .ok (.skipRegisterNotEqual x y) := by
  have h := decode_of_spells (.group9 (fieldA_wordFXYN 0x9 x y n))
  rwa [fieldX_wordFXYN, fieldY_wordFXYN] at h

/-- Settles O21: each of the four commits a skip on the Boolean test of its comparison. -/
theorem comparingSkipsCompare : Obligations.ComparingSkipsCompare :=
  fun x y nn n _ => ⟨decode_encode (.skipEqual x nn), decode_encode (.skipNotEqual x nn), decode_group5 x y n,
    decode_group9 x y n, skips_of_commitSkip rfl beq_iff_eq, skips_of_commitSkip rfl bne_iff_ne,
    skips_of_commitSkip rfl beq_iff_eq, skips_of_commitSkip rfl bne_iff_ne⟩

/-! ## The key skips (R164, R165) -/

/-- With a key's index in Vx, the skip is on that key's flag. -/
theorem skipOnKey_of_key {x : Reg} {s : State} {k : Key} (want : Bool) (h : (s.reg x).toNat = k.val) :
    skipOnKey x want s = commitSkip s (s.key[k] == want) := by
  simp only [skipOnKey, keyOperand_eq_some.2 h]

/-- An index above 0x0F is the fault's value as it is, and PC plays no part. -/
theorem skipOnKey_of_gt {x : Reg} {s : State} (want : Bool) (h : 0x0F < (s.reg x).toNat) :
    skipOnKey x want s = .next (s.takeFault .invalidKeyIndex (some (BitVec.ofNat 16 (s.reg x).toNat))) := by
  simp only [skipOnKey, keyOperand_eq_none.2 h, raise, zextByte, BitVec.ofNat_toNat]

/-- Settles O22, by whether Vx is the index of a key. -/
theorem keySkipsReadTheKeypad : Obligations.KeySkipsReadTheKeypad :=
  fun x _ => ⟨decode_encode (.skipIfPressed x), decode_encode (.skipIfNotPressed x),
    fun _ hkey => ⟨skips_of_commitSkip (skipOnKey_of_key true hkey) beq_iff_eq,
      skips_of_commitSkip (skipOnKey_of_key false hkey) beq_iff_eq⟩,
    fun hgt => ⟨skipOnKey_of_gt true hgt, skipOnKey_of_gt false hgt⟩⟩

end Sys2Proof.Machine
end

section
/-! Proofs of the statements of 42_register_ops.md: the six register operations without flags. -/

namespace Sys2Proof.Machine

/-- R181: the machine's byte sum is the sum modulo 256. -/
theorem ofNat_sum_mod (a b : Byte) : BitVec.ofNat 8 ((a.toNat + b.toNat) % 256) = a + b :=
  BitVec.eq_of_toNat_eq (by simp)

/-- R181: Add is sequential, and its only write is the sum in Vx. -/
theorem add_sequential (x : Reg) (nn : Byte) (s : State) :
    Sequential (.add x nn) s (s.setReg x (BitVec.ofNat 8 ((s.v[x].toNat + nn.toNat) % 256))) := by
  rw [ofNat_sum_mod]
  exact sequential_of_commitNext rfl

/-- Settles O23: each word is its operation's encoding, and each meaning is the commit of one write to Vx. -/
theorem registerOperationsWriteVxOnly : Obligations.RegisterOperationsWriteVxOnly :=
  fun x y nn s => ⟨decode_encode (.set x nn), decode_encode (.add x nn), decode_encode (.setRegister x y),
    decode_encode (.orRegister x y), decode_encode (.andRegister x y), decode_encode (.xorRegister x y),
    sequential_of_commitNext rfl, add_sequential x nn s, sequential_of_commitNext rfl, sequential_of_commitNext rfl,
    sequential_of_commitNext rfl, sequential_of_commitNext rfl⟩

end Sys2Proof.Machine
end

section
/-! Proofs of the statements of 43_arithmetic_flags.md: the sum, the two differences and the two shifts, each with its flag. -/

namespace Sys2Proof.Machine

/-! ## Sum and differences (R201 to R203) -/

/-- R201: the carry flag. -/
theorem carryOut_iff (a b : Byte) : carryOut a b = true ↔ 255 < a.toNat + b.toNat := decide_eq_true_iff

/-- R202, R203: the no-borrow flag. -/
theorem noBorrow_iff (a b : Byte) : noBorrow a b = true ↔ b.toNat ≤ a.toNat := decide_eq_true_iff

/-- R202, R203: the machine's byte difference is the difference modulo 256. -/
theorem toNat_difference (a b : Byte) : (a - b).toNat = (a.toNat + 256 - b.toNat) % 256 := by
  rw [BitVec.toNat_sub]; omega

/-- Settles O24: each meaning commits its result and then its flag, and both are those of the unsigned values. -/
theorem addAndSubtractSetCarryAndNoBorrow : Obligations.AddAndSubtractSetCarryAndNoBorrow :=
  fun x y _ => ⟨decode_encode (.addRegister x y), decode_encode (.subtractYFromX x y),
    decode_encode (.subtractXFromY x y), flagOperation_of_commit rfl (BitVec.toNat_add ..) (carryOut_iff ..),
    flagOperation_of_commit rfl (toNat_difference ..) (noBorrow_iff ..),
    flagOperation_of_commit rfl (toNat_difference ..) (noBorrow_iff ..)⟩

/-! ## The shifts (R204, R205) -/

/-- R204: a right shift by one halves the byte. -/
theorem toNat_shiftRight_one (b : Byte) : (b >>> 1).toNat = b.toNat / 2 := by
  rw [BitVec.toNat_ushiftRight, Nat.shiftRight_one]

/-- R205: a left shift by one doubles the byte modulo 256. -/
theorem toNat_shiftLeft_one (b : Byte) : (b <<< 1).toNat = b.toNat * 2 % 256 := by
  rw [BitVec.toNat_shiftLeft, Nat.shiftLeft_eq]

/-- R204: the bit that a right shift drops is the byte's parity. -/
theorem shiftedOutLow_iff (b : Byte) : shiftedOutLow b = true ↔ b.toNat % 2 = 1 := by
  rw [shiftedOutLow, BitVec.getLsbD, Nat.testBit_zero, decide_eq_true_iff]

/-- R205: the bit that a left shift drops is the byte's top bit. -/
theorem shiftedOutHigh_iff (b : Byte) : shiftedOutHigh b = true ↔ 128 ≤ b.toNat := by
  rw [shiftedOutHigh, BitVec.getLsbD_last, decide_eq_true_iff]

/-- Settles O25: each meaning commits Vy shifted by one and then the bit that the shift drops. -/
theorem shiftsTakeVyAndSetTheBitShiftedOut : Obligations.ShiftsTakeVyAndSetTheBitShiftedOut :=
  fun x y _ => ⟨decode_encode (.shiftRight x y), decode_encode (.shiftLeft x y),
    flagOperation_of_commit rfl (toNat_shiftRight_one _) (shiftedOutLow_iff _),
    flagOperation_of_commit rfl (toNat_shiftLeft_one _) (shiftedOutHigh_iff _)⟩

end Sys2Proof.Machine
end

section
/-! Proofs of the statements of 44_index_memory.md: the three operations that write I, and the three that access memory at I. -/

namespace Sys2Proof.Machine

variable {s : State}

/-! ## The operations without a check of their own (R220, R222) -/

/-- R222: the glyph's address as the word of the unbounded sum. -/
theorem glyphAddr_eq (b : Byte) : glyphAddr b = BitVec.ofNat 16 (Config.fontBase.val + 5 * (b.toNat % 16)) := by
  rw [← glyphAddr_toNat, BitVec.ofNat_toNat, BitVec.setWidth_eq]

theorem setIndex_sequential (nnn : Addr12) (s : State) :
    Sequential (.setIndex nnn) s (s.setI (BitVec.ofNat 16 nnn.toNat)) := by
  rw [BitVec.ofNat_toNat]
  exact sequential_of_commitNext rfl

theorem fontCharacter_sequential (x : Reg) (s : State) :
    Sequential (.fontCharacter x) s (s.setI (BitVec.ofNat 16 (Config.fontBase.val + 5 * ((s.reg x).toNat % 16)))) := by
  rw [← glyphAddr_eq]
  exact sequential_of_commitNext rfl

/-- Settles O26: both are sequential instructions whose one write is I. -/
theorem setIndexAndFontCharacterWriteI : Obligations.SetIndexAndFontCharacterWriteI :=
  fun x nnn s => ⟨decode_encode (.setIndex nnn), decode_encode (.fontCharacter x), setIndex_sequential nnn s,
    fontCharacter_sequential x s⟩

/-! ## A check of the highest address before the next-PC check (R221, R223 to R225) -/

/-- A meaning that checks the address `a` first and then commits sequentially: `a` in memory leaves a sequential instruction,
`a` above 0xFFF is the fault's value, and PC plays no part in it. -/
theorem sequential_of_check {i : Instr} {new : State} {c : Prop} [Decidable c] {a : Nat}
    (h : exec i s = if c then commitNext s new else raiseOutOfBounds s a) (hc : c ↔ a ≤ 0xFFF) :
    (a ≤ 0xFFF → Sequential i s new) ∧ (0xFFF < a → exec i s = .next (s.outOfBounds a)) := by
  constructor
  · intro hle
    exact sequential_of_commitNext (h.trans (if_pos (hc.2 hle)))
  · intro hgt
    exact h.trans (if_neg fun hcheck => Nat.not_le_of_lt hgt (hc.1 hcheck))

/-- Settles O27: the address checked is the sum itself. -/
theorem addToIndexAddsOrFaults : Obligations.AddToIndexAddsOrFaults :=
  fun x _ => ⟨decode_encode (.addToIndex x), sequential_of_check rfl Iff.rfl⟩

/-! ## Reads after a run of writes (R72, R73) -/

/-- Byte `k` of a run of writes from `a` on stands at `a + k`. -/
theorem read_writeList_at (m : Memory) (a : Nat) {bytes : List Byte} {k : Nat} (h : k < bytes.length) :
    (m.writeList a bytes).read (a + k) = bytes[k] := by
  rw [Memory.read_writeList, if_pos (by omega), Nat.add_sub_cancel_left, List.getD_eq_getElem]

/-- A run of writes leaves the bytes below it and above it as they were. -/
theorem read_writeList_outside (m : Memory) {a b : Nat} {bytes : List Byte} (h : b < a ∨ a + bytes.length ≤ b) :
    (m.writeList a bytes).read b = m.read b := by
  rw [Memory.read_writeList, if_neg (by omega)]

/-! ## DecimalConversion (R223) -/

/-- R223: the digits as numbers, none of which a byte cuts off. -/
theorem decimalDigits_toNat (b : Byte) :
    (decimalDigits b).map BitVec.toNat = [b.toNat / 100, b.toNat / 10 % 10, b.toNat % 10] := by
  simp only [decimalDigits, List.map_cons, List.map_nil, BitVec.toNat_ofNat, List.cons.injEq, and_true]
  omega

/-- The digits a DecimalConversion lays out from `a` on. -/
theorem read_decimalDigits (m : Memory) (a : Nat) (b : Byte) {k d : Nat}
    (h : [b.toNat / 100, b.toNat / 10 % 10, b.toNat % 10][k]? = some d) :
    ((m.writeList a (decimalDigits b)).read (a + k)).toNat = d := by
  rw [← decimalDigits_toNat, List.getElem?_map, Option.map_eq_some_iff] at h
  obtain ⟨v, hv, rfl⟩ := h
  obtain ⟨hk, rfl⟩ := List.getElem?_eq_some_iff.1 hv
  rw [read_writeList_at m a hk]

/-- Settles O28: the checked address is I + 2, and the one write is the run of the three digits at I. -/
theorem decimalConversionWritesThreeDigits : Obligations.DecimalConversionWritesThreeDigits := by
  intro x s
  obtain ⟨hin, hout⟩ := sequential_of_check (i := .decimalConversion x) (s := s) rfl (rangeValid_succ _ 2)
  refine ⟨decode_encode (.decimalConversion x), fun hi hpc => ⟨_, (hin hi).1 hpc, ?_, ?_, ?_, ?_, rfl⟩,
    fun hi => (hin hi).2, hout⟩
  · exact read_decimalDigits s.mem s.i.toNat (s.reg x) (k := 0) rfl
  · exact read_decimalDigits s.mem s.i.toNat (s.reg x) (k := 1) rfl
  · exact read_decimalDigits s.mem s.i.toNat (s.reg x) (k := 2) rfl
  · exact fun a ha => read_writeList_outside s.mem ha

/-! ## Store (R224) -/

/-- A Store leaves the bytes below the range I .. I + x and above it as they were. -/
theorem read_storedRegs_outside (s : State) (m : Memory) {a b : Nat} {x : Reg} (h : b < a ∨ a + x.val < b) :
    (m.writeList a ((regsUpTo x).map s.reg)).read b = m.read b := by
  apply read_writeList_outside
  rw [List.length_map, regsUpTo_length]
  omega

/-- Settles O29: the checked address is I + x, and the one write is the run of V0 to Vx at I. -/
theorem storeWritesV0ToVx : Obligations.StoreWritesV0ToVx := by
  intro x s
  obtain ⟨hin, hout⟩ := sequential_of_check (i := .store x) (s := s) rfl (rangeValid_succ _ x.val)
  refine ⟨decode_encode (.store x), fun hi hpc => ⟨_, (hin hi).1 hpc, ?_, ?_, rfl⟩, fun hi => (hin hi).2, hout⟩
  · exact fun r hr => read_storedRegs s s.mem s.i.toNat hr
  · exact fun a ha => read_storedRegs_outside s s.mem ha

/-! ## Load (R225) -/

/-- Load's meaning with its writes as one write of the register file. -/
theorem exec_load (x : Reg) (s : State) :
    exec (.load x) s = if rangeValid (s.indexAddr 0) (x.val + 1) then commitNext s { s with v := (loadRegs s x).v }
      else raiseOutOfBounds s (s.indexAddr x.val) := by
  rw [← loadRegs_eq]
  rfl

/-- Settles O30: the checked address is I + x, and the one write is V0 to Vx from memory at I. -/
theorem loadReadsIntoV0ToVx : Obligations.LoadReadsIntoV0ToVx := by
  intro x s
  obtain ⟨hin, hout⟩ := sequential_of_check (exec_load x s) (rangeValid_succ _ x.val)
  refine ⟨decode_encode (.load x), fun hi hpc => ⟨_, (hin hi).1 hpc, ?_, ?_, fun _ => rfl, rfl⟩,
    fun hi => (hin hi).2, hout⟩
  · intro r hr
    exact (reg_loadRegs s x r).trans (if_pos hr)
  · intro r hr
    exact (reg_loadRegs s x r).trans (if_neg (Fin.not_le.2 hr))

end Sys2Proof.Machine
end

section
/-! Proofs of the statements of 45_display.md: what Display draws, and what drawing the same sprite again does. -/

namespace Sys2Proof.Machine

variable {s u : State}

/-! ## What Display writes (R240, R243) -/

/-- Display's writes: the screen with the `n`-row sprite drawn at column `x0` and row `y0`, then the collision flag in VF. -/
def State.withSprite (s : State) (x0 y0 n : Nat) : State :=
  (s.setScreen (drawSprite s x0 y0 n).disp).setFlag (drawSprite s x0 y0 n).collision

/-- With every sprite byte in memory, Display is sequential and draws at (Vx mod 64, Vy mod 32). -/
theorem display_sequential (x y : Reg) {n : Height} (hi : n.val = 0 ∨ s.i.toNat + n.val - 1 ≤ 0xFFF) :
    Sequential (.display x y n) s (s.withSprite (s.v[x].toNat % 64) (s.v[y].toNat % 32) n.val) := by
  have hrange : rangeValid (s.indexAddr 0) n.val = true := by
    rw [rangeValid_iff]
    exact hi.imp_right fun hle => by simp only [State.indexAddr]; omega
  exact sequential_of_commitNext (if_pos hrange)

/-- A sprite byte outside memory is a fault at the last one's address, in which PC plays no part. -/
theorem exec_display_of_outside (x y : Reg) {n : Height} (hn : n.val ≠ 0) (hi : 0xFFF < s.i.toNat + n.val - 1) :
    exec (.display x y n) s = .next (s.outOfBounds (s.i.toNat + n.val - 1)) := by
  have hrange : ¬ rangeValid (s.indexAddr 0) n.val = true := by
    rw [rangeValid_iff, State.indexAddr]
    omega
  rw [Nat.add_sub_assoc (Nat.one_le_iff_ne_zero.2 hn)]
  exact if_neg hrange

theorem v_setFlag_other (s : State) (f : Bool) {r : Reg} (h : r ≠ 0xF) : (s.setFlag f).v[r] = s.v[r] :=
  setReg_other s (flagByte f) h

/-- R31: the byte that a flag leaves in VF. -/
theorem v_setFlag_self (s : State) (f : Bool) : (s.setFlag f).v[(0xF : Reg)] = flagByte f := by
  rw [v_get_eq_reg, setFlag_eq, reg_setReg, if_pos rfl]

/-- VF after a flag that says whether some pixel is `p` on screen `a` and lit in `b`. -/
theorem v_setFlag_of_collision (s : State) {f p : Bool} {a b : Fin 32 → Fin 64 → Bool}
    (h : f = true ↔ ∃ r c, a r c = p ∧ b r c = true) :
    ((∃ r c, a r c = p ∧ b r c = true) → (s.setFlag f).v[(0xF : Reg)] = 1) ∧
    ((∀ r c, a r c = p → b r c = false) → (s.setFlag f).v[(0xF : Reg)] = 0) := by
  rw [v_setFlag_self]
  constructor
  · intro hex
    rw [h.2 hex, flagByte_true]
  · intro hall
    have hf : f = false := Bool.eq_false_iff.2 fun htrue => by
      obtain ⟨r, c, ha, hb⟩ := h.1 htrue
      rw [hall r c ha] at hb
      cases hb
    rw [hf, flagByte_false]

/-- Settles O33: in range Display commits the sprite's XOR and its collision flag, and out of range it faults first. -/
theorem displayXorsTheSprite : Obligations.DisplayXorsTheSprite := by
  intro x y n s
  refine ⟨decode_encode (.display x y n), fun hi hpc => ?_, fun hi => (display_sequential x y hi).2,
    exec_display_of_outside x y⟩
  obtain ⟨hdisp, hcollision⟩ := drawSprite_spec s (Nat.mod_lt s.v[x].toNat (by decide)) (s.v[y].toNat % 32) n.val
  obtain ⟨hone, hzero⟩ := v_setFlag_of_collision (s.setScreen _) hcollision
  exact ⟨_, (display_sequential x y hi).1 hpc, hdisp, hone, hzero, fun _ hr => v_setFlag_other _ _ hr, fun _ => rfl, rfl⟩

/-! ## The same sprite again (R244) -/

/-- A sprite's pixels depend on I and memory alone. -/
theorem spriteLit_congr (hi : u.i = s.i) (hmem : ∀ a, u.mem.read a = s.mem.read a) (x0 y0 n : Nat) (r : Fin 32)
    (c : Fin 64) : spriteLit u x0 y0 n r c = spriteLit s x0 y0 n r c := by
  simp only [spriteLit, hi, hmem]

/-- Screens with equal pixels are equal. -/
theorem screen_ext {d e : Screen} (h : ∀ (r : Fin 32) (c : Fin 64), d[r][c] = e[r][c]) : d = e :=
  Vector.ext fun r hr => Vector.ext fun c hc => h ⟨r, hr⟩ ⟨c, hc⟩

/-- Settles O34: the second draw XORs the same pixels onto the screen that the first one left. -/
theorem drawingTwiceRestoresTheDisplay : Obligations.DrawingTwiceRestoresTheDisplay := by
  intro x y x' y' n s u hi hpc hpc' hcol hrow hI hmem hdraw
  have hfirst : u.disp = (drawSprite s (s.v[x].toNat % 64) (s.v[y].toNat % 32) n.val).disp :=
    hdraw _ ((display_sequential x y hi).1 hpc)
  have hsecond := (display_sequential x' y' (s := u) (by rwa [hI])).1 hpc'
  rw [hcol, hrow] at hsecond
  obtain ⟨hdisp, hcollision⟩ :=
    drawSprite_again (Nat.mod_lt s.v[x].toNat (by decide)) _ n.val hfirst (spriteLit_congr hI hmem _ _ _)
  exact ⟨_, hsecond, screen_ext hdisp, v_setFlag_of_collision (u.setScreen _) hcollision⟩

end Sys2Proof.Machine
end

section
/-! Proofs of the statements of 46_timers_input.md: the timers, the key wait, key events and Random. -/

namespace Sys2Proof.Machine

variable {s t : State}

/-! ## The timer operations, GetKey and Random (R260 to R264) -/

/-- Settles O35: each word is its operation's encoding, and each meaning is the commit of one copy. -/
theorem timerOperationsCopy : Obligations.TimerOperationsCopy :=
  fun x _ => ⟨decode_encode (.setRegisterDelayTimer x), decode_encode (.setDelayTimer x),
    decode_encode (.setSoundTimer x), sequential_of_commitNext rfl, sequential_of_commitNext rfl,
    sequential_of_commitNext rfl⟩

/-- Settles O36: GetKey's meaning is the entry of the wait, with no commit. -/
theorem getKeySuspends : Obligations.GetKeySuspends :=
  fun x _ => ⟨decode_encode (.getKey x), rfl⟩

/-- Settles O39: Random's meaning is the commit of the masked free byte and the count of its draw. -/
theorem randomMasksTheDrawnByte : Obligations.RandomMasksTheDrawnByte :=
  fun x nn _ => ⟨decode_encode (.random x nn), sequential_of_commitNext rfl⟩

/-! ## The key wait (R267 to R269) -/

theorem coreTurn_resumes {x : Reg} {k : Key} (hm : s.mode = .awaitingKey x) (hk : s.keyLatch = some k) :
    coreTurn s = commitNext s ((s.setReg x (keyByte k)).leaveWait) := by
  simp only [coreTurn, hm, hk, resumeKeyWait]

theorem coreTurn_holds {x : Reg} (hm : s.mode = .awaitingKey x) (hk : s.keyLatch = none) : coreTurn s = .next s := by
  simp only [coreTurn, hm, hk]

/-- Settles O37: the resume is a sequential commit of the key's index and the end of the wait. -/
theorem resumeWritesTheLatchedKey : Obligations.ResumeWritesTheLatchedKey :=
  fun _ _ _ hm hk => ⟨fun hle => (coreTurn_resumes hm hk).trans (commitNext_of_le hle),
    fun hgt => (coreTurn_resumes hm hk).trans (commitNext_of_gt hgt)⟩

/-- Settles O38: the core's turn without a latched key. -/
theorem waitWithoutAKeyHolds : Obligations.WaitWithoutAKeyHolds :=
  fun _ _ hm hk => coreTurn_holds hm hk

/-! ## ST is not read (R266) -/

/-- A commit carries a change of ST along, whether its writes land or the next-PC check discards them. -/
theorem mapNext_setSound_commit (s new : State) (n : Nat) (b : Byte) :
    mapNext (fun t => t.setSound b) (commit s new n) = commit (s.setSound b) (new.setSound b) n := by
  rcases Nat.lt_or_ge 0xFFF n with hn | hn
  · rw [commit_of_gt hn, commit_of_gt hn]; rfl
  · rw [commit_of_le hn, commit_of_le hn]; rfl

theorem mapNext_setSound_raise (s : State) (k : FaultKind) (value : Option Word) (b : Byte) :
    mapNext (fun t => t.setSound b) (raise s k value) = raise (s.setSound b) k value := rfl

/-- A meaning with a check of its own carries a change of ST along, since both of its branches do. -/
theorem mapNext_setSound_check {c : Prop} {_ : Decidable c} (s new : State) (a : Nat) (b : Byte) :
    mapNext (fun t => t.setSound b) (if c then commitNext s new else raiseOutOfBounds s a) =
      if c then commitNext (s.setSound b) (new.setSound b) else raiseOutOfBounds (s.setSound b) a := by
  split_ifs
  · exact mapNext_setSound_commit ..
  · exact mapNext_setSound_raise ..

theorem mapNext_setSound_ret (s : State) (b : Byte) :
    mapNext (fun t => t.setSound b) (exec .ret s) = exec .ret (s.setSound b) := by
  by_cases hempty : s.sp.val = 0
  · rw [exec_ret_of_empty hempty]
    exact (exec_ret_of_empty (s := s.setSound b) hempty).symm
  · have htop : s.sp.val - 1 + 1 = s.sp.val := by omega
    have hslot : s.sp.val - 1 < 16 := by omega
    rw [exec_ret_of_top (top := ⟨_, hslot⟩) htop, mapNext_setSound_commit]
    exact (exec_ret_of_top (s := s.setSound b) (top := ⟨_, hslot⟩) htop).symm

theorem mapNext_setSound_callSubroutine (nnn : Addr12) (s : State) (b : Byte) :
    mapNext (fun t => t.setSound b) (exec (.callSubroutine nnn) s) = exec (.callSubroutine nnn) (s.setSound b) := by
  by_cases hroom : s.sp.val < 16
  · rw [exec_callSubroutine_of_lt nnn hroom]
    exact (exec_callSubroutine_of_lt (s := s.setSound b) nnn hroom).symm
  · have hfull : s.sp.val = 16 := by omega
    rw [exec_callSubroutine_of_full nnn hfull]
    exact (exec_callSubroutine_of_full (s := s.setSound b) nnn hfull).symm

theorem mapNext_setSound_skipOnKey (x : Reg) (want : Bool) (s : State) (b : Byte) :
    mapNext (fun t => t.setSound b) (skipOnKey x want s) = skipOnKey x want (s.setSound b) := by
  have hreg : (s.setSound b).reg x = s.reg x := rfl
  simp only [skipOnKey, hreg]
  rcases keyOperand (s.reg x) with _ | k
  · exact mapNext_setSound_raise ..
  · exact mapNext_setSound_commit ..

theorem loadRegs_setSound (s : State) (x : Reg) (b : Byte) : loadRegs (s.setSound b) x = (loadRegs s x).setSound b := by
  refine eq_of_reg (s := s.setSound b) (loadRegs_eq ..) (by rw [loadRegs_eq s x]; rfl) fun q => ?_
  have hright : ((loadRegs s x).setSound b).reg q = (loadRegs s x).reg q := rfl
  rw [hright, reg_loadRegs, reg_loadRegs]
  rfl

/-- Every instruction but SetSoundTimer carries a change of ST along unread. -/
theorem mapNext_setSound_exec {i : Instr} (hi : ∀ x, i ≠ .setSoundTimer x) (s : State) (b : Byte) :
    mapNext (fun t => t.setSound b) (exec i s) = exec i (s.setSound b) := by
  cases i with
  | setSoundTimer x => exact absurd rfl (hi x)
  | getKey x => rfl
  | ret => exact mapNext_setSound_ret s b
  | callSubroutine nnn => exact mapNext_setSound_callSubroutine nnn s b
  | skipIfPressed x | skipIfNotPressed x => exact mapNext_setSound_skipOnKey ..
  | load x =>
    simp only [exec, execLoad, loadRegs_setSound]
    exact mapNext_setSound_check ..
  | addToIndex x | decimalConversion x | store x | display x y n => exact mapNext_setSound_check ..
  | _ => exact mapNext_setSound_commit ..

/-- Where SetSoundTimer completes, the value that ST had before is gone; where it faults, it is carried along. -/
theorem exec_setSoundTimer_setSound (x : Reg) (s : State) (b : Byte) :
    exec (.setSoundTimer x) (s.setSound b) = mapNext (fun t => t.setSound b) (exec (.setSoundTimer x) s) ∨
      exec (.setSoundTimer x) (s.setSound b) = exec (.setSoundTimer x) s := by
  rcases Nat.lt_or_ge 0xFFF (s.pc.toNat + 2) with hpc | hpc
  · have hfault : exec (.setSoundTimer x) s = .next (s.outOfBounds (s.pc.toNat + 2)) := commitNext_of_gt hpc
    rw [hfault]
    exact .inl (commitNext_of_gt (old := s.setSound b) hpc)
  · have hnext : exec (.setSoundTimer x) s = .next { s with st := s.reg x, pc := _ } := commitNext_of_le hpc
    rw [hnext]
    exact .inr (commitNext_of_le (old := s.setSound b) hpc)

/-- Settles O40: SetSoundTimer overwrites a change of ST or faults, and every other instruction carries it along. -/
theorem noInstructionReadsTheSoundTimer : Obligations.NoInstructionReadsTheSoundTimer := by
  intro i s b
  by_cases hi : ∃ x, i = .setSoundTimer x
  · obtain ⟨x, rfl⟩ := hi
    exact (exec_setSoundTimer_setSound x s b).imp_right fun h => ⟨⟨x, rfl⟩, h⟩
  · exact .inl (mapNext_setSound_exec (fun x hx => hi ⟨x, hx⟩) s b).symm

/-! ## The timers during a wait (R269, R295, R296) -/

theorem live_of_wait {x : Reg} (hm : s.mode = .awaitingKey x) : s.mode.live = true := by rw [hm]; rfl

/-- No load leaves the machine in a key wait (R320, R321). -/
theorem loadRom_mode_ne_wait (s : State) (rom : List Byte) (x : Reg) : (s.loadRom rom).mode ≠ .awaitingKey x := by
  rcases Nat.lt_or_ge 3584 rom.length with hgt | hle
  · rw [loadRom_tooLarge s hgt]; exact ExecMode.noConfusion
  · rw [loadRom_fits s hle]; exact ExecMode.noConfusion

/-- A resume ends the wait, by its commit or by a fault (R268). -/
theorem keyLatch_none_of_core_keeps_wait {x y : Reg} (hm : s.mode = .awaitingKey x) (ht : t.mode = .awaitingKey y)
    (h : coreTurn s = .next t) : s.keyLatch = none := by
  by_contra hne
  obtain ⟨k, hk⟩ := Option.ne_none_iff_exists'.1 hne
  rw [coreTurn_resumes hm hk] at h
  rcases commitNext_cases h with ⟨-, rfl⟩ | ⟨-, rfl⟩ <;> cases ht

theorem keyDown_timers (s : State) (k : Key) : (s.keyDown k).dt = s.dt ∧ (s.keyDown k).st = s.st := by
  unfold State.keyDown State.ifLive
  split_ifs <;> exact ⟨rfl, rfl⟩

/-- A step that does not end the wait is a tick, or leaves both timers as they are. -/
theorem timers_of_wait_step {e : AgentStep} {x y : Reg} (hm : s.mode = .awaitingKey x) (ht : t.mode = .awaitingKey y)
    (h : agentStep e s = .next t) :
    (e = .tick ∧ t.dt = countDown s.dt ∧ t.st = countDown s.st) ∨ (e ≠ .tick ∧ t.dt = s.dt ∧ t.st = s.st) := by
  cases e with
  | core =>
    cases (coreTurn_holds hm (keyLatch_none_of_core_keeps_wait hm ht h)).symm.trans h
    exact .inr ⟨nofun, rfl, rfl⟩
  | tick =>
    cases h
    rw [tick_live (live_of_wait hm)]
    exact .inl ⟨rfl, rfl, rfl⟩
  | keyDown k => cases h; exact .inr ⟨nofun, keyDown_timers s k⟩
  | keyUp k => cases h; exact .inr ⟨nofun, s.keyUp_dt k, s.keyUp_st k⟩
  | ackRedraw => cases h; exact .inr ⟨nofun, s.ackRedraw_dt, s.ackRedraw_st⟩
  | stop =>
    cases h
    rw [stop_live (live_of_wait hm)] at ht
    cases ht
  | load rom => cases h; exact absurd ht (loadRom_mode_ne_wait s rom y)

/-- A count that never rises, and that each tick of a schedule lowers unless it is 0, is 0 from some point on when ticks keep
coming. -/
theorem eventually_zero_of_ticks {f : Nat → Nat} {sched : Nat → AgentStep} (hanti : Antitone f)
    (htick : ∀ n, sched n = .tick → f (n + 1) = f n - 1) (hfair : ∀ n, ∃ m, n ≤ m ∧ sched m = .tick) :
    ∃ n, ∀ m, n ≤ m → f m = 0 := by
  have hdrain : ∀ k, ∃ n, f n ≤ f 0 - k := by
    intro k
    induction k with
    | zero => exact ⟨0, le_refl _⟩
    | succ k ih =>
      obtain ⟨n, hn⟩ := ih
      obtain ⟨m, hnm, hm⟩ := hfair n
      have hle : f m ≤ f n := hanti hnm
      exact ⟨m + 1, by rw [htick m hm]; omega⟩
  obtain ⟨n, hn⟩ := hdrain (f 0)
  refine ⟨n, fun m hnm => ?_⟩
  have hle : f m ≤ f n := hanti hnm
  omega

/-- A timer that only ticks change, each by one count, is 0 from some point on when ticks keep coming. -/
theorem timer_runs_out {timer : Nat → Byte} {sched : Nat → AgentStep}
    (hstep : ∀ n, (sched n = .tick ∧ timer (n + 1) = countDown (timer n)) ∨
      (sched n ≠ .tick ∧ timer (n + 1) = timer n))
    (hfair : ∀ n, ∃ m, n ≤ m ∧ sched m = .tick) : ∃ n, ∀ m, n ≤ m → timer m = 0 := by
  have hanti : Antitone fun n => (timer n).toNat := by
    refine antitone_nat_of_succ_le fun n => ?_
    rcases hstep n with ⟨-, h⟩ | ⟨-, h⟩
    · rw [h, countDown_toNat]; exact Nat.sub_le ..
    · rw [h]
  have htick (n : Nat) (hn : sched n = .tick) : (timer (n + 1)).toNat = (timer n).toNat - 1 := by
    rcases hstep n with ⟨-, h⟩ | ⟨hne, -⟩
    · rw [h, countDown_toNat]
    · exact absurd hn hne
  obtain ⟨n, hzero⟩ := eventually_zero_of_ticks hanti htick hfair
  exact ⟨n, fun m hm => BitVec.eq_of_toNat_eq (hzero m hm)⟩

/-- Settles O49: only ticks change the timers, and fairness brings ticks for as long as the wait lasts. -/
theorem timersRunOutDuringAnUnansweredWait : Obligations.TimersRunOutDuringAnUnansweredWait := by
  intro trace sched hrun hfair hwait
  have hticks (n : Nat) : ∃ m, n ≤ m ∧ sched m = .tick :=
    hfair.1 n fun m _ => (hwait m).elim fun _ => live_of_wait
  have hstep (n : Nat) := timers_of_wait_step (hwait n).choose_spec (hwait (n + 1)).choose_spec (hrun n)
  obtain ⟨n, hdt⟩ := timer_runs_out (timer := fun n => (trace n).dt)
    (fun n => (hstep n).imp (fun ⟨he, h, _⟩ => ⟨he, h⟩) (fun ⟨he, h, _⟩ => ⟨he, h⟩)) hticks
  obtain ⟨n', hst⟩ := timer_runs_out (timer := fun n => (trace n).st)
    (fun n => (hstep n).imp (fun ⟨he, _, h⟩ => ⟨he, h⟩) (fun ⟨he, _, h⟩ => ⟨he, h⟩)) hticks
  exact ⟨max n n', fun m hm => ⟨hdt m (le_of_max_le_left hm), hst m (le_of_max_le_right hm)⟩⟩

/-! ## Key events (R267, R288, R300) -/

theorem agentStep_keyDown (s : State) (k : Key) : agentStep (.keyDown k) s = .next (s.keyDown k) := rfl

theorem agentStep_keyUp (s : State) (k : Key) : agentStep (.keyUp k) s = .next (s.keyUp k) := rfl

/-- Settles O50, by the key's state, the mode and the latch. -/
theorem keyEventsPressReleaseAndLatch : Obligations.KeyEventsPressReleaseAndLatch := by
  intro s k
  simp only [agentStep_keyDown, agentStep_keyUp]
  refine ⟨fun hk => ?_, fun hk ⟨x, hm⟩ hlatch => ?_, fun hl hk hother => ?_, fun hl => ?_, fun hl => ⟨?_, ?_⟩⟩
  · rw [keyDown_pressed hk]
  · rw [keyDown_released (live_of_wait hm) hk, latchAfter_wait k hm hlatch]
  · rw [keyDown_released hl hk, latchAfter_other k hother]
  · rw [keyUp_live k hl]
  · rw [keyDown_terminal k hl]
  · rw [keyUp_terminal k hl]

/-! ## A whole-keypad update (R300, R301) -/

/-- The single-key step that brings key `k` to its state in `target`. -/
def keyMove (target : Vector Bool 16) (k : Key) : AgentStep := if target[k] then .keyDown k else .keyUp k

/-- What that step does; `agentStep_keyMove` ties it to the machine. -/
def State.moveKey (target : Vector Bool 16) (s : State) (k : Key) : State :=
  if target[k] then s.keyDown k else s.keyUp k

variable {target : Vector Bool 16} {k : Key}

theorem getElem_set_key (keys : Vector Bool 16) (k j : Key) (p : Bool) :
    (keys.set k p)[j] = if j = k then p else keys[j] := by
  simp only [Fin.getElem_fin, Vector.getElem_set, Fin.ext_iff, eq_comm]

theorem agentStep_keyMove (target : Vector Bool 16) (s : State) (k : Key) :
    agentStep (keyMove target k) s = .next (s.moveKey target k) := by
  unfold keyMove State.moveKey
  split_ifs <;> rfl

theorem keyUpdate_cons_same {order : List Key} (h : s.key[k] = target[k]) :
    keyUpdate (k :: order) target s = keyUpdate order target s := by
  simp only [keyUpdate, List.filterMap_cons, if_pos h]

theorem keyUpdate_cons_changed {order : List Key} (h : s.key[k] ≠ target[k]) :
    keyUpdate (k :: order) target s = keyMove target k :: keyUpdate order target s := by
  simp only [keyUpdate, List.filterMap_cons, if_neg h, keyMove]
  split_ifs <;> rfl

theorem keyUpdate_congr {order : List Key} (h : ∀ j ∈ order, t.key[j] = s.key[j]) :
    keyUpdate order target t = keyUpdate order target s :=
  List.filterMap_congr fun j hj => by rw [h j hj]

theorem moveKey_down (h : target[k] = true) : s.moveKey target k = s.keyDown k := if_pos h

theorem moveKey_up (h : target[k] = false) : s.moveKey target k = s.keyUp k := if_neg (Bool.eq_false_iff.1 h)

/-- A key that is in its target state stays there. -/
theorem moveKey_same (h : s.key[k] = target[k]) : s.moveKey target k = s := by
  cases hk : target[k] with
  | true => rw [moveKey_down hk, keyDown_pressed (h.trans hk)]
  | false =>
    have hkeys : s.key.set k false = s.key := by rw [← hk, ← h]; exact Vector.set_getElem_self k.isLt
    rw [moveKey_up hk, State.keyUp, hkeys, State.ifLive, ite_self]

theorem moveKey_terminal (hl : s.mode.live = false) (k : Key) : s.moveKey target k = s := by
  cases hk : target[k] with
  | true => rw [moveKey_down hk, keyDown_terminal k hl]
  | false => rw [moveKey_up hk, keyUp_terminal k hl]

/-- In Running and AwaitingKey a single-key step brings its key to the target and no other (R300). -/
theorem getElem_moveKey (hl : s.mode.live = true) (k j : Key) :
    (s.moveKey target k).key[j] = if j = k then target[k] else s.key[j] := by
  by_cases hsame : s.key[k] = target[k]
  · rw [moveKey_same hsame]
    split_ifs with hj
    · rw [hj, hsame]
    · rfl
  · cases hk : target[k] with
    | true =>
      have hreleased : s.key[k] = false := Bool.eq_false_iff.2 fun hp => hsame (hp.trans hk.symm)
      rw [moveKey_down hk, keyDown_released hl hreleased]
      exact getElem_set_key ..
    | false =>
      rw [moveKey_up hk, keyUp_live k hl]
      exact getElem_set_key ..

/-- A single-key step changes the keypad and the latch alone. -/
theorem moveKey_eq (s : State) (k : Key) :
    s.moveKey target k = { s with key := (s.moveKey target k).key, keyLatch := (s.moveKey target k).keyLatch } := by
  unfold State.moveKey State.keyDown State.keyUp State.ifLive
  split_ifs <;> rfl

/-- A single-key step commutes with the agenda, the model's own field. -/
theorem moveKey_agenda (s : State) (a : List AgentStep) (k : Key) :
    ({ s with agenda := a } : State).moveKey target k = { s.moveKey target k with agenda := a } := by
  simp only [State.moveKey, State.keyDown, State.keyUp, State.ifLive]
  split_ifs <;> rfl

/-- During a wait a single-key step keeps a latched key, and else latches the key that it presses (R267, R300). -/
theorem moveKey_latch {x : Reg} (hm : s.mode = .awaitingKey x) (k : Key) :
    (s.moveKey target k).keyLatch = s.keyLatch.or (if target[k] && !s.key[k] then some k else none) := by
  cases hk : target[k] with
  | false => rw [moveKey_up hk, State.keyUp_keyLatch]; exact Option.or_none.symm
  | true =>
    rw [moveKey_down hk]
    cases hs : s.key[k] with
    | true => rw [keyDown_pressed hs]; exact Option.or_none.symm
    | false =>
      rw [keyDown_released (live_of_wait hm) hs]
      cases hlatch : s.keyLatch with
      | none => exact latchAfter_wait k hm hlatch
      | some j => exact (latchAfter_other k (.inr (by simp [hlatch]))).trans hlatch

/-- The keypad after single-key steps in the order `order`, repeated keys included. -/
theorem getElem_foldl_moveKey (order : List Key) (hl : s.mode.live = true) (j : Key) :
    (order.foldl (State.moveKey target) s).key[j] = if j ∈ order then target[j] else s.key[j] := by
  induction order generalizing s with
  | nil => simp
  | cons k rest ih =>
    have hl' : (s.moveKey target k).mode.live = true := by rw [moveKey_eq]; exact hl
    rw [List.foldl_cons, ih hl', getElem_moveKey hl]
    by_cases hrest : j ∈ rest
    · simp [hrest]
    · by_cases hj : j = k <;> simp [hrest, hj]

theorem foldl_moveKey_terminal (order : List Key) (hl : s.mode.live = false) :
    order.foldl (State.moveKey target) s = s := by
  induction order with
  | nil => rfl
  | cons k rest ih => rw [List.foldl_cons, moveKey_terminal hl, ih]

theorem foldl_moveKey_eq (order : List Key) (s : State) :
    order.foldl (State.moveKey target) s = { s with
      key := (order.foldl (State.moveKey target) s).key
      keyLatch := (order.foldl (State.moveKey target) s).keyLatch } := by
  induction order generalizing s with
  | nil => rfl
  | cons k rest ih => rw [List.foldl_cons, ih, moveKey_eq s k]

/-- Keys that are yet to move keep their state while `k` moves. -/
theorem getElem_moveKey_of_mem {order : List Key} (hk : k ∉ order) {j : Key} (hj : j ∈ order) :
    (s.moveKey target k).key[j] = s.key[j] := by
  have hjk : j ≠ k := fun h => hk (h ▸ hj)
  cases hl : s.mode.live with
  | true => rw [getElem_moveKey hl, if_neg hjk]
  | false => rw [moveKey_terminal hl]

/-- During a wait the latch stays what it was, or becomes the first key of the order that gets pressed (R267, R301). -/
theorem foldl_moveKey_latch {x : Reg} {order : List Key} (horder : order.Nodup) (hm : s.mode = .awaitingKey x) :
    (order.foldl (State.moveKey target) s).keyLatch =
      s.keyLatch.or (order.find? fun k => target[k] && !s.key[k]) := by
  induction order generalizing s with
  | nil => simp
  | cons k rest ih =>
    obtain ⟨hk, hrest⟩ := List.nodup_cons.1 horder
    have hm' : (s.moveKey target k).mode = .awaitingKey x := by rw [moveKey_eq]; exact hm
    have hfind : rest.find? (fun j => target[j] && !(s.moveKey target k).key[j]) =
        rest.find? fun j => target[j] && !s.key[j] :=
      List.find?_congr fun j hj => by rw [getElem_moveKey_of_mem hk hj]
    rw [List.foldl_cons, ih hrest hm', moveKey_latch hm, hfind, Option.or_assoc, List.find?_cons]
    cases target[k] && !s.key[k] <;> rfl

/-- One step of a run, by the agent first in the agenda. -/
theorem run_cons {e : AgentStep} {rest : List AgentStep} (n : Nat)
    (h : agentStep e { s with agenda := rest } = .next t) :
    Sys2Proof.core.run (n + 1) { s with agenda := e :: rest } = Sys2Proof.core.run n t := by
  have hstep : Sys2Proof.core.step { s with agenda := e :: rest } = .next t := (step_cons rfl).trans h
  simp only [Host.Core.run, hstep]

/-- The run of a whole-keypad update takes the single-key steps in order. -/
theorem run_keyUpdate {order : List Key} (horder : order.Nodup) (s : State) :
    Sys2Proof.core.run (keyUpdate order target s).length { s with agenda := keyUpdate order target s } =
      .next { order.foldl (State.moveKey target) s with agenda := [] } := by
  induction order generalizing s with
  | nil => rfl
  | cons k rest ih =>
    obtain ⟨hk, hrest⟩ := List.nodup_cons.1 horder
    rw [List.foldl_cons]
    by_cases hsame : s.key[k] = target[k]
    · rw [keyUpdate_cons_same hsame, moveKey_same hsame, ih hrest]
    · have hlater : keyUpdate rest target (s.moveKey target k) = keyUpdate rest target s :=
        keyUpdate_congr fun j hj => getElem_moveKey_of_mem hk hj
      have hfirst : agentStep (keyMove target k) { s with agenda := keyUpdate rest target s } =
          .next { s.moveKey target k with agenda := keyUpdate rest target s } := by
        rw [agentStep_keyMove, moveKey_agenda]
      rw [keyUpdate_cons_changed hsame, List.length_cons, run_cons _ hfirst, ← hlater, ih hrest]

/-- Settles O51: the run is the fold of the single-key steps, whose keypad, latch and frame are each an induction over the
order. -/
theorem keypadUpdateInAnyOrderReachesTheTarget : Obligations.KeypadUpdateInAnyOrderReachesTheTarget := by
  intro order target s horder hall
  refine ⟨_, run_keyUpdate horder s, fun hl => Vector.ext fun j hj => ?_, ?_, fun ⟨x, hm⟩ hlatch => ?_, fun hl => ?_⟩
  · exact (getElem_foldl_moveKey order hl ⟨j, hj⟩).trans (if_pos (hall _))
  · rw [foldl_moveKey_eq]
  · exact (foldl_moveKey_latch horder hm).trans (by rw [hlatch, Option.none_or])
  · rw [foldl_moveKey_terminal order hl]

end Sys2Proof.Machine
end

section
/-! Proofs of the statements of 60_exceptions.md: fault entry, terminal modes, the tick, AckRedraw, Stop, too large a ROM and
the outputs. -/

namespace Sys2Proof.Machine

variable {s t : State}

/-! ## Fault entry (R282, R283) -/

/-- No live mode is Halted (R47, R288). -/
theorem live_ne_halted {m : ExecMode} (hl : m.live = true) (k : FaultKind) : m ≠ .halted k := by
  rintro rfl; cases hl

/-- An instruction that halts a live machine leaves its fault entry: GetKey's wait and a commit of writes do not halt. -/
theorem takeFault_of_exec_halts {i : Instr} {k : FaultKind} (hl : s.mode.live = true) (h : exec i s = .next t)
    (ht : t.mode = .halted k) : ∃ value, t = s.takeFault k value := by
  rcases exec_cases h with ⟨k', value, -, rfl⟩ | ⟨x, -, rfl⟩ | ⟨new, n, -, rfl, hw⟩
  · cases ht; exact ⟨value, rfl⟩
  · cases ht
  · obtain ⟨hmode, -⟩ := hw.control
    exact absurd (hmode.symm.trans ht) (live_ne_halted hl k)

/-- The same of the step of Running: a fetch past memory and an illegal word are fault entries too. -/
theorem takeFault_of_runInstruction_halts {k : FaultKind} (hl : s.mode.live = true) (h : runInstruction s = .next t)
    (ht : t.mode = .halted k) : ∃ value, t = s.takeFault k value := by
  rcases runInstruction_cases s with ⟨-, heq⟩ | ⟨w, e, -, -, heq⟩ | ⟨w, i, -, -, heq⟩ <;> rw [heq] at h
  · cases h; cases ht; exact ⟨_, rfl⟩
  · cases h; cases ht; exact ⟨_, rfl⟩
  · exact takeFault_of_exec_halts hl h ht

/-- The core's turn in a key wait halts by the resume's next-PC fault only (R268). -/
theorem takeFault_of_wait_halts {x : Reg} {k : FaultKind} (hm : s.mode = .awaitingKey x) (h : coreTurn s = .next t)
    (ht : t.mode = .halted k) : ∃ value, t = s.takeFault k value := by
  cases hk : s.keyLatch with
  | none =>
    cases (coreTurn_holds hm hk).symm.trans h
    cases hm.symm.trans ht
  | some key =>
    rcases commitNext_cases ((coreTurn_resumes hm hk).symm.trans h) with ⟨-, rfl⟩ | ⟨-, rfl⟩
    · cases ht
    · cases ht; exact ⟨_, rfl⟩

/-- Settles O12, by the two live modes. -/
theorem faultCommitsNothingElse : Obligations.FaultCommitsNothingElse := by
  intro s t k hl h ht
  cases hm : s.mode with
  | running => exact takeFault_of_runInstruction_halts hl ((coreTurn_running hm).symm.trans h) ht
  | awaitingKey x => exact takeFault_of_wait_halts hm h ht
  | halted k' => exact absurd hm (live_ne_halted hl k')
  | stopped => rw [hm] at hl; cases hl

/-! ## Terminal modes (R287, R288, R327) -/

theorem coreTurn_halted {k : FaultKind} (hm : s.mode = .halted k) : coreTurn s = .fault (.halted k) := by
  simp only [coreTurn, hm]

theorem coreTurn_stopped (hm : s.mode = .stopped) : coreTurn s = .refused .stopped := by
  simp only [coreTurn, hm]

/-- In a terminal mode the core answers no next state. -/
theorem coreTurn_terminal (hl : s.mode.live = false) (t : State) : coreTurn s ≠ .next t := by
  cases hm : s.mode with
  | running => rw [hm] at hl; cases hl
  | awaitingKey x => rw [hm] at hl; cases hl
  | halted k => rw [coreTurn_halted hm]; exact nofun
  | stopped => rw [coreTurn_stopped hm]; exact nofun

/-- In a terminal mode a step other than a load that answers a next state answers the same state. -/
theorem eq_of_terminal_step {e : AgentStep} (hl : s.mode.live = false) (he : ∀ rom, e ≠ .load rom)
    (h : agentStep e s = .next t) : t = s := by
  cases e with
  | core => exact absurd h (coreTurn_terminal hl t)
  | tick => cases h; exact tick_terminal hl
  | keyDown k => cases h; exact keyDown_terminal k hl
  | keyUp k => cases h; exact keyUp_terminal k hl
  | ackRedraw => cases h; exact ackRedraw_terminal hl
  | stop => cases h; exact stop_terminal hl
  | load rom => exact absurd rfl (he rom)

/-- Settles O53: the core's two stops, and every agent's step. -/
theorem terminalModesAreLeftByLoadOnly : Obligations.TerminalModesAreLeftByLoadOnly :=
  fun _ => ⟨fun _ => coreTurn_halted, coreTurn_stopped, fun hl _ _ => eq_of_terminal_step hl⟩

/-! ## The tick, AckRedraw and Stop (R295, R303, R304) -/

/-- Settles O47: both timers take one count. -/
theorem tickCountsBothTimersDown : Obligations.TickCountsBothTimersDown :=
  fun s hl => ⟨_, congrArg Host.Outcome.next (tick_live hl), countDown_toNat s.dt, countDown_toNat s.st, rfl⟩

/-- Settles O52, by the step and by whether the mode is live. -/
theorem acknowledgeAndStop : Obligations.AcknowledgeAndStop :=
  fun _ => ⟨fun hl => congrArg Host.Outcome.next (ackRedraw_live hl),
    fun hl => congrArg Host.Outcome.next (ackRedraw_terminal hl),
    fun hl => congrArg Host.Outcome.next (stop_live hl), fun hl => congrArg Host.Outcome.next (stop_terminal hl)⟩

/-! ## Too large a ROM (R281, R321) -/

/-- Settles O55: the record's value is the length, where 16 bits hold it. -/
theorem loadOfTooLargeARomHalts : Obligations.LoadOfTooLargeARomHalts :=
  fun s rom hgt => ⟨romLengthValue rom.length, congrArg Host.Outcome.next (loadRom_tooLarge s hgt), romLengthValue_toNat⟩

/-! ## The outputs (R307) -/

/-- The snapshot is the display's rows one after the other. -/
theorem outputs_display (s : State) : s.outputs.display = s.disp.flatten.toList := by
  have hrows : s.disp.flatten.toList = ((s.disp.toArray.map Vector.toArray).toList.map Array.toList).flatten :=
    Array.toList_flatten
  rw [hrows, Array.toList_map, List.map_map]
  rfl

/-- R44: pixel (r, c) stands at index r * 64 + c of the snapshot. -/
theorem outputs_display_getElem? (s : State) (r : Fin 32) (c : Fin 64) :
    s.outputs.display[r.val * 64 + c.val]? = some s.disp[r][c] := by
  have hi : r.val * 64 + c.val < 32 * 64 := by omega
  have hrow : (r.val * 64 + c.val) / 64 = r.val := by omega
  have hcol : (r.val * 64 + c.val) % 64 = c.val := by omega
  rw [outputs_display, Vector.getElem?_toList, Vector.getElem?_eq_getElem hi, Vector.getElem_flatten]
  simp only [hrow, hcol, Fin.getElem_fin]

/-- R43: the tone sounds while ST is Counting. -/
theorem outputs_toneOn_iff (s : State) : s.outputs.toneOn = true ↔ s.st ≠ 0 := by
  rw [State.outputs, decide_eq_true_iff, Nat.pos_iff_ne_zero]
  exact not_congr (BitVec.toNat_eq (y := 0)).symm

/-- Settles O57: the snapshot's length and pixels, the tone, and the three outputs that are fields of the state. -/
theorem outputsFollowTheState : Obligations.OutputsFollowTheState :=
  fun s => ⟨by rw [outputs_display, Vector.length_toList], outputs_display_getElem? s, outputs_toneOn_iff s, rfl, rfl, rfl⟩

end Sys2Proof.Machine
end
